-- ==== Sys2Proof/Config.lean ====
section
/-!
DEFINITION. The configuration of the block: the one open parameter `cfg` of the spec
(spec/00_scope.md rule R7), the sizes that follow from it, and the fixed constants of rule R8.
The spec has no other parameter the model takes, and it has no free value at all
(spec/93_implementation_defined.md: "any value (never used here)"), so this file has no opaque
constant.
-/

namespace Sys2Proof

/-- `cfg ∈ {L7, L16}` (R7, R31): the lane configuration, fixed for one block.  It is held in
`Machine.State` and no step changes it. -/
inductive Cfg where
  /-- CPE-L7: seven 9-bit lanes in a 63-bit word. -/
  | l7
  /-- CPE-L16: sixteen 16-bit lanes in a 256-bit word. -/
  | l16
  deriving DecidableEq, Repr

/-- LANES (R7): how many puzzles one lane-word carries. -/
def Cfg.lanes : Cfg → Nat
  | .l7 => 7
  | .l16 => 16

/-- STRIDE (R7): bits from one lane's field to the next. -/
def Cfg.stride : Cfg → Nat
  | .l7 => 9
  | .l16 => 16

/-- WORD_BITS = LANES × STRIDE (R7; `Laws.wordBits_eq` states the product). -/
def Cfg.wordBits : Cfg → Nat
  | .l7 => 63
  | .l16 => 256

/-- BUS_BITS (R7): the width of `wdata` and `rdata`. -/
def Cfg.busBits : Cfg → Nat
  | .l7 => 64
  | .l16 => 256

/-- The configuration of the ONE state `Machine.State.reset` that the host's interface asks for.
DESIGN CHOICE (notes/assumptions/1.md), unsafe: the spec leaves `cfg` open.
`Machine.State.resetOf` is the reset state of each configuration. -/
def Cfg.ofReset : Cfg := .l7

end Sys2Proof
end

