-- ==== Sys2Proof/Word.lean ====
section
/-!
DEFINITION. The word types of the block.  Every value is an unsigned bit vector of a stated width,
bit 0 the least significant (spec/00_scope.md rule R10).
-/

namespace Sys2Proof

/-- A command word (R103), and the value of a 32-bit status register. -/
abbrev Word32 := BitVec 32

/-- A digit mask (R13): bit k stands for the digit k+1. -/
abbrev Mask := BitVec 9

/-- A lane-word of WORD_BITS bits (R12, R70). -/
abbrev LaneWord (c : Cfg) := BitVec c.wordBits

/-- What a data bus of the command port carries: BUS_BITS bits (R7, R72, R100). -/
abbrev BusWord (c : Cfg) := BitVec c.busBits

end Sys2Proof
end

