-- ==== Sys2Proof/Syntax.lean ====
section
/-!
DEFINITION. The commands of the block, one constructor per row of spec/opcode_table.json
(spec/30_encoding.md rule R105).  An operand is the natural number that ARG holds (R104).  The data
word of WR is no part of the command word: it travels on `wdata` (R100, R104).
-/

namespace Sys2Proof

/-- The eight commands (R2, R105). -/
inductive Instr where
  /-- NOP (R190). -/
  | nop
  /-- NEWB, new batch (R130). -/
  | newb
  /-- WR a, write `wdata` to the cell at grid address a (R133). -/
  | wr (a : Nat)
  /-- RD a, read the lane-word at grid address a (R137). -/
  | rd (a : Nat)
  /-- INIT, compute the 27 accumulators from the cells (R150). -/
  | init
  /-- PROP c, one cell step on cell c (R164). -/
  | prop (c : Nat)
  /-- RUN r, r rounds of 81 cell steps (R165). -/
  | run (r : Nat)
  /-- RDCSR n, read status register n (R191). -/
  | rdcsr (n : Nat)
  deriving DecidableEq, Repr

end Sys2Proof
end

