-- ==== Sys2Proof/WellFormed.lean ====
section
/-!
DEFINITION. Which commands can be encoded: ARG is eight bits (spec/30_encoding.md rules R103, R104), so an
operand is 0..255.  An operand beyond the command's useful range is still well formed: the command
then faults when it executes (R105).
-/

namespace Sys2Proof

/-- An operand that ARG can hold (R104). -/
def argFits (n : Nat) : Bool := decide (n < 256)

/-- A command that some command word encodes (R105). -/
def Instr.wf : Instr → Bool
  | .nop => true
  | .newb => true
  | .wr a => argFits a
  | .rd a => argFits a
  | .init => true
  | .prop c => argFits c
  | .run r => argFits r
  | .rdcsr n => argFits n

end Sys2Proof
end

