-- ==== Sys2Proof/Decode.lean ====
section
/-!
DEFINITION. Decoding a command word and encoding a command (spec/30_encoding.md rules R103 to R107,
spec/opcode_table.json).  The decoder is total on all 2^32 words and rejects by name.
-/

namespace Sys2Proof

/-- Why a word decodes to Illegal (R106, R107), in the order the rule tests. -/
inductive IllegalWord where
  /-- The MBZ field, bits 23:8, is not zero. -/
  | mbzNonzero
  /-- OPC is 0x08..0xFF, reserved for later versions. -/
  | reservedOpc
  /-- NOP, NEWB or INIT with an ARG that is not zero. -/
  | argNonzero
  deriving DecidableEq, Repr

/-- OPC, bits 31:24 (R103). -/
def opcField (w : Word32) : BitVec 8 := w.extractLsb' 24 8

/-- MBZ, bits 23:8 (R103). -/
def mbzField (w : Word32) : BitVec 16 := w.extractLsb' 8 16

/-- ARG, bits 7:0 (R103, R104). -/
def argField (w : Word32) : BitVec 8 := w.extractLsb' 0 8

/-- The command of an opcode that takes no operand, or Illegal when ARG is not zero (R106). -/
def withoutArg (arg : Nat) (i : Instr) : Except IllegalWord Instr :=
  if arg = 0 then .ok i else .error .argNonzero

/-- The command an opcode selects (R105), ARG given as a number; opcodes above 0x07 are reserved
(R107). -/
def decodeOpc (opc arg : Nat) : Except IllegalWord Instr :=
  match opc with
  | 0x00 => withoutArg arg .nop
  | 0x01 => withoutArg arg .newb
  | 0x02 => .ok (.wr arg)
  | 0x03 => .ok (.rd arg)
  | 0x04 => withoutArg arg .init
  | 0x05 => .ok (.prop arg)
  | 0x06 => .ok (.run arg)
  | 0x07 => .ok (.rdcsr arg)
  | _ => .error .reservedOpc

/-- `decode : Word32 → Command ∪ {Illegal}` (R106). -/
def decode (w : Word32) : Except IllegalWord Instr :=
  if mbzField w ≠ 0#16 then .error .mbzNonzero
  else decodeOpc (opcField w).toNat (argField w).toNat

/-- The opcode of a command (R105). -/
def opcOf : Instr → BitVec 8
  | .nop => 0x00#8
  | .newb => 0x01#8
  | .wr _ => 0x02#8
  | .rd _ => 0x03#8
  | .init => 0x04#8
  | .prop _ => 0x05#8
  | .run _ => 0x06#8
  | .rdcsr _ => 0x07#8

/-- The operand of a command; 0 for the commands that have none (R104). -/
def argOf : Instr → Nat
  | .nop => 0
  | .newb => 0
  | .wr a => a
  | .rd a => a
  | .init => 0
  | .prop c => c
  | .run r => r
  | .rdcsr n => n

/-- The command word of a command, in the format CMD32: OPC, sixteen zero bits, ARG (R103, R105). -/
def encode (i : Instr) : Word32 := opcOf i ++ 0#16 ++ BitVec.ofNat 8 (argOf i)

/-- What the decoder reads from an instruction whose bits are `w`, numbered as
spec/opcode_table.json numbers them.  A command is one 32-bit word (R103) and the port takes it whole,
so there are no words to lay out; a number that needs more than 32 bits is no command word. -/
def decodeTableWord (nbits w : Nat) : Option Instr :=
  if nbits ≤ 32 ∧ w < 2 ^ 32 then
    match decode (BitVec.ofNat 32 w) with
    | .ok i => some i
    | .error _ => none
  else none

end Sys2Proof
end

