-- ==== Sys2Proof/Machine/State.lean ====
section
/-!
DEFINITION. The state of the block as plain data (spec/10_state.md), the state after reset (rule R49), and the two
reason types of the host's interface.
-/

namespace Sys2Proof.Machine

/-- The fault causes (R201).  Codes 6..15 are reserved and never produced, and code 0 is "no fault",
so the type has exactly these five (spec/93_implementation_defined.md X5). -/
inductive Cause where
  /-- 1: the command word decodes to Illegal. -/
  | illegal
  /-- 2: the operand is outside the implemented range. -/
  | badAddr
  /-- 3: WR to an accumulator. -/
  | roWrite
  /-- 4: WR data not well formed. -/
  | badData
  /-- 5: the command would read storage whose valid bit is 0. -/
  | uninit
  deriving DecidableEq, Repr

/-- What a fault entry writes (R206): CAUSE and FCMD. -/
structure FaultRecord where
  /-- CAUSE (R44, R201). -/
  cause : Cause
  /-- FCMD (R45): the command word of the first fault since reset. -/
  fcmd : Word32
  deriving DecidableEq, Repr

/-- The accumulator file (R36): 27 lane-words. -/
structure Accs (c : Cfg) where
  row : Vector (LaneWord c) 9
  col : Vector (LaneWord c) 9
  box : Vector (LaneWord c) 9
  deriving DecidableEq, Repr

/-- The architectural state of the block, exactly the record of R30.  A cell that is not valid has
NO content (`none`, CV[i] = 0), and the accumulators that are not valid have none (`none`, AV = 0):
R231 asks that they be represented as absent, and R30 names these types.  ERR = 1 is a fault record
that is present. -/
structure Engine (c : Cfg) where
  /-- `C[i]` with its valid bit `CV[i]` (R32, R34). -/
  cells : Vector (Option (LaneWord c)) 81
  /-- `ROW`, `COL`, `BOX` with their valid bit `AV` (R36, R37). -/
  accs : Option (Accs c)
  /-- `ERR`, `CAUSE`, `FCMD` (R44, R45). -/
  fault : Option FaultRecord
  deriving DecidableEq, Repr

/-- `resp` (R101): OK is 0, FAULT is 1. -/
inductive Resp where
  | ok
  | fault
  deriving DecidableEq, Repr

/-- The two outputs of a command transaction (R100, R101). -/
structure Response (c : Cfg) where
  resp : Resp
  rdata : BusWord c
  deriving DecidableEq, Repr

/-- What the host may do to the block (R6, R100, R237): present a command transaction, or apply
reset.  There is no other input. -/
inductive HostEvent (c : Cfg) where
  /-- One command transaction: `cmd` and `wdata`. -/
  | command (cmd : Word32) (wdata : BusWord c)
  /-- The reset input (R230). -/
  | reset
  deriving DecidableEq, Repr

/-- The machine: the block in its configuration, its command port, and the host's stream of events.
The block stores no program (R31, R40): its "next instruction" is the next transaction of the
stream, which the model holds as data (notes/assumptions/2.md). -/
structure State where
  /-- The configuration (R7, R31): a parameter, never changed by a step. -/
  cfg : Cfg
  /-- The architectural state (R30). -/
  engine : Engine cfg
  /-- The port's input `cmd` of the transaction the block has accepted (R100). -/
  cmd : Word32
  /-- The port's input `wdata` of that transaction (R100, R102). -/
  wdata : BusWord cfg
  /-- The port's outputs `resp` and `rdata` of the last transaction that returned since reset;
  `none` when none has (R100, R101, R230). -/
  response : Option (Response cfg)
  /-- What the host will do, in order (R31, R80). -/
  pending : List (HostEvent cfg)
  deriving DecidableEq, Repr

/-- Reasons the model's step could stop the machine.  There are none: a CPE fault is an event whose
entry the spec describes (R206), so the model TAKES it, in a next state; and every word, address and
datum is given an outcome (R106, R201). -/
inductive Fault where
  deriving DecidableEq, Repr

/-- Reasons the model has no meaning to give. -/
inductive Refusal where
  /-- An instruction without a meaning yet, raised by `exec` in its arm.  Safe: the model stops.
  No arm raises it: every command has its meaning. -/
  | notModelled (mnemonic : String)
  deriving DecidableEq, Repr

/-- The reset state of the block (R49, R230): every valid bit 0, no content anywhere (R231), no
fault. -/
def Engine.reset (c : Cfg) : Engine c where
  cells := Vector.replicate 81 none
  accs := none
  fault := none

/-- The machine right after reset in a configuration: the block waits for the first command (R49).
The values on the port's inputs are the model's (notes/assumptions/3.md). -/
def State.resetOf (c : Cfg) : State where
  cfg := c
  engine := Engine.reset c
  cmd := 0
  wdata := 0
  response := none
  pending := []

/-- The machine right after reset, in the configuration of notes/assumptions/1.md. -/
def State.reset : State := State.resetOf Cfg.ofReset

end Sys2Proof.Machine
end

