-- ==== Sys2Proof/Machine/Lanes.lean ====
section
/-!
DEFINITION. Lanes, digit masks and cell geometry: the notation of spec/00_scope.md rules R10 to R14 and the packing
of spec/20_memory.md rules R70 to R73.
-/

namespace Sys2Proof.Machine

variable {c : Cfg}

/-- `a &~ b`, the source's AND-NOT (R10). -/
def andNot {n : Nat} (a b : BitVec n) : BitVec n := a &&& ~~~b

/-- `onehot9(v)`, the exactly-one-bit test (R11); the decrement is modulo 2^9 (R169). -/
def onehot9 (v : Mask) : Bool := decide (v ≠ 0#9) && decide (v &&& (v - 1#9) = 0#9)

/-- A legal value of a cell's lane: unsolved (0) or solved (one-hot) (R13, R33). -/
def blankOrOneHot (v : Mask) : Bool := decide (v = 0#9) || onehot9 v

/-- The position of bit 0 of lane j (R70). -/
def laneBase (c : Cfg) (j : Fin c.lanes) : Nat := c.stride * j.val

/-- `lane(w, j)`: the nine bits of lane j (R12, R70). -/
def lane (w : LaneWord c) (j : Fin c.lanes) : Mask := w.extractLsb' (laneBase c j) 9

/-- A mask at the position of lane j, zero elsewhere. -/
def atLane (j : Fin c.lanes) (m : Mask) : LaneWord c := m.setWidth c.wordBits <<< laneBase c j

/-- `setlane(w, j, m)`: the nine bits of lane j replaced by m, every other bit kept (R12). -/
def setLane (w : LaneWord c) (j : Fin c.lanes) (m : Mask) : LaneWord c :=
  andNot w (atLane j 0x1FF#9) ||| atLane j m

/-- The lane-word of given masks, lane by lane, pad bits zero (R70, R73). -/
def packLanes (m : Fin c.lanes → Mask) : LaneWord c :=
  (List.finRange c.lanes).foldl (fun w j => setLane w j (m j)) 0

/-- `ONES`: every lane 0x1FF, every pad bit zero (R12, R71, R153). -/
def onesWord (c : Cfg) : LaneWord c := packLanes (fun _ => 0x1FF#9)

/-- `pad(w)`: the bits of w that belong to no lane's nine-bit field (R12, R71). -/
def padBits (w : LaneWord c) : LaneWord c := andNot w (onesWord c)

/-- A lane-word on a data bus: bit b of the word is bit b of the bus, zeros above (R72). -/
def toBus (w : LaneWord c) : BusWord c := w.setWidth c.busBits

/-- The lane-word on a data bus: the low WORD_BITS bits (R72, R133). -/
def fromBus (d : BusWord c) : LaneWord c := d.setWidth c.wordBits

/-- The mask of the digit character d of a board: 0 is blank, 1..9 one-hot (R13, R73). -/
def maskOfDigit (d : Fin 10) : Mask := if d.val = 0 then 0#9 else 1#9 <<< (d.val - 1)

/-- The digit a host reads back from a cell's lane: 0 is "unknown"; `none` for a mask that no cell
holds (R139). -/
def digitOfMask (m : Mask) : Option (Fin 10) :=
  (List.finRange 10).find? fun d => decide (maskOfDigit d = m)

/-- `row(i)` (R14). -/
def rowOf (i : Fin 81) : Fin 9 := ⟨i.val / 9, by omega⟩

/-- `col(i)` (R14). -/
def colOf (i : Fin 81) : Fin 9 := ⟨i.val % 9, by omega⟩

/-- `box(i)` (R14). -/
def boxOf (i : Fin 81) : Fin 9 :=
  ⟨(rowOf i).val / 3 * 3 + (colOf i).val / 3, by
    have := (rowOf i).isLt
    have := (colOf i).isLt
    omega⟩

end Sys2Proof.Machine
end

