-- ==== Sys2Proof/Machine/Operands.lean ====
section
/-!
DEFINITION. What an operand of a command names (spec/30_encoding.md rule R104): a word of the grid (R74), a cell
(R164) or a status register (R76).  A round count (R165) is the number itself.  Each is a function that
answers `none` for a number outside the implemented range, for which the command raises BAD_ADDR
(R201).
-/

namespace Sys2Proof.Machine

/-- The three kinds of unit (R14). -/
inductive UnitKind where
  | row
  | col
  | box
  deriving DecidableEq, Repr

/-- A unit: a row, a column or a box (R14), and the accumulator that belongs to it (R36). -/
structure GridUnit where
  kind : UnitKind
  index : Fin 9
  deriving DecidableEq, Repr

/-- The unit of a kind in which a cell lies (R14). -/
def unitOf (k : UnitKind) (i : Fin 81) : GridUnit :=
  match k with
  | .row => ⟨.row, rowOf i⟩
  | .col => ⟨.col, colOf i⟩
  | .box => ⟨.box, boxOf i⟩

/-- The cell lies in the unit (R14). -/
abbrev GridUnit.has (u : GridUnit) (i : Fin 81) : Prop := unitOf u.kind i = u

/-- The word a grid address names (R74). -/
inductive GridWord where
  /-- Addresses 0..80. -/
  | cell (i : Fin 81)
  /-- Addresses 81..107. -/
  | acc (u : GridUnit)
  deriving DecidableEq, Repr

/-- The cell a cell index names: 0..80 (R164). -/
def cellIndex (n : Nat) : Option (Fin 81) := if h : n < 81 then some ⟨n, h⟩ else none

/-- The grid address map (R74): 0..80 cells, 81..89 ROW, 90..98 COL, 99..107 BOX, nothing above. -/
def gridWord (a : Nat) : Option GridWord :=
  if h : a ≤ 80 then some (.cell ⟨a, by omega⟩)
  else if h : a ≤ 89 then some (.acc ⟨.row, ⟨a - 81, by omega⟩⟩)
  else if h : a ≤ 98 then some (.acc ⟨.col, ⟨a - 90, by omega⟩⟩)
  else if h : a ≤ 107 then some (.acc ⟨.box, ⟨a - 99, by omega⟩⟩)
  else none

/-- The grid address of a word (R74, R75). -/
def gridAddress : GridWord → Nat
  | .cell i => i.val
  | .acc ⟨.row, u⟩ => 81 + u.val
  | .acc ⟨.col, u⟩ => 90 + u.val
  | .acc ⟨.box, u⟩ => 99 + u.val

/-- The four status registers (R42). -/
inductive Csr where
  /-- CSR 0 (R43). -/
  | config
  /-- CSR 1 (R44). -/
  | status
  /-- CSR 2 (R45). -/
  | fcmd
  /-- CSR 3 (R46). -/
  | ldone
  deriving DecidableEq, Repr

/-- The status register a CSR number names (R42, R76). -/
def csrOf (n : Nat) : Option Csr :=
  match n with
  | 0 => some .config
  | 1 => some .status
  | 2 => some .fcmd
  | 3 => some .ldone
  | _ => none

end Sys2Proof.Machine
end

