-- ==== Sys2Proof/Machine/Flags.lean ====
section
/-!
DEFINITION. The flag-like state of the block (spec/10_state.md rule R41: there are no condition codes), and the
four status registers computed from the state (R42 to R46).
-/

namespace Sys2Proof.Machine

variable {c : Cfg}

/-- `CV[i]` (R34). -/
def Engine.cv (e : Engine c) (i : Fin 81) : Bool := (e.cells[i]).isSome

/-- `AV` (R37). -/
def Engine.av (e : Engine c) : Bool := e.accs.isSome

/-- `ERR` (R44). -/
def Engine.err (e : Engine c) : Bool := e.fault.isSome

/-- The words of the 81 cells, when every one is valid: what a command that reads all cells reads.
The content of an invalid cell never enters a value (R34, R231). -/
def Engine.words (e : Engine c) : Option (Vector (LaneWord c) 81) :=
  if h : ∀ i : Fin 81, (e.cells[i]).isSome = true then
    some (Vector.ofFn fun i => (e.cells[i]).get (h i))
  else none

/-- `CALL`: all 81 cells are valid; computed, not stored (R35). -/
def Engine.call (e : Engine c) : Bool := e.words.isSome

/-- The code of a cause (R201). -/
def causeCode : Cause → BitVec 4
  | .illegal => 1#4
  | .badAddr => 2#4
  | .roWrite => 3#4
  | .badData => 4#4
  | .uninit => 5#4

/-- `CAUSE`: the code of the first fault since reset, 0 when ERR = 0 (R44). -/
def Engine.cause (e : Engine c) : BitVec 4 :=
  match e.fault with
  | none => 0#4
  | some f => causeCode f.cause

/-- CSR 0, CONFIG: `{19'b0, STRIDE[4:0], 3'b0, LANES[4:0]}` (R43, R191). -/
def configReg (c : Cfg) : Word32 :=
  0#19 ++ BitVec.ofNat 5 c.stride ++ 0#3 ++ BitVec.ofNat 5 c.lanes

/-- CSR 1, STATUS: `{24'b0, CAUSE[3:0], 1'b0, CALL, AV, ERR}` (R44, R191). -/
def statusReg (e : Engine c) : Word32 :=
  0#24 ++ e.cause ++ 0#1 ++ BitVec.ofBool e.call ++ BitVec.ofBool e.av ++ BitVec.ofBool e.err

/-- CSR 2, FCMD: the command word of the first fault since reset, 0 when ERR = 0 (R45). -/
def fcmdReg (e : Engine c) : Word32 :=
  match e.fault with
  | none => 0
  | some f => f.fcmd

/-- Lane j of every cell is solved (R46). -/
def laneDone (ws : Vector (LaneWord c) 81) (j : Fin c.lanes) : Bool :=
  (List.finRange 81).all fun i => onehot9 (lane ws[i] j)

/-- CSR 3, LDONE: LANES bits, bit j set when all cells are valid and lane j of every cell is one-hot;
0, without a fault, while a cell is invalid (R46). -/
def ldoneReg (e : Engine c) : BitVec c.lanes :=
  match e.words with
  | none => 0
  | some ws => BitVec.ofFnLE fun j => laneDone ws j

/-- `csr(n)`, zero-extended to BUS_BITS (R42, R191). -/
def csrValue (r : Csr) (e : Engine c) : BusWord c :=
  match r with
  | .config => (configReg c).setWidth c.busBits
  | .status => (statusReg e).setWidth c.busBits
  | .fcmd => (fcmdReg e).setWidth c.busBits
  | .ldone => (ldoneReg e).setWidth c.busBits

end Sys2Proof.Machine
end

