-- ==== Sys2Proof/Machine/Ops.lean ====
section
/-!
DEFINITION. The operations the commands share: access to the grid words (spec/20_memory.md rule R74), the checks
of spec/40_grid_access.md, the completion of a transaction, fault entry and the faulted state
(spec/60_exceptions.md rules R206, R207), and reset, the only way out of it (R208, R230).
-/

namespace Sys2Proof.Machine

variable {c : Cfg}

/-! ### The accumulators -/

/-- The accumulator of a unit (R36). -/
def Accs.get (a : Accs c) (u : GridUnit) : LaneWord c :=
  match u.kind with
  | .row => a.row[u.index]
  | .col => a.col[u.index]
  | .box => a.box[u.index]

/-- The accumulators with one of them replaced. -/
def Accs.set (a : Accs c) (u : GridUnit) (w : LaneWord c) : Accs c :=
  match u.kind with
  | .row => { a with row := a.row.set u.index w }
  | .col => { a with col := a.col.set u.index w }
  | .box => { a with box := a.box.set u.index w }

/-! ### The grid words -/

/-- `MemRead(a, 1)` (R15, R74): the lane-word at a grid address, `none` while it is invalid, when the
command raises UNINIT instead of reading (R205). -/
def memRead (e : Engine c) (g : GridWord) : Option (LaneWord c) :=
  match g with
  | .cell i => e.cells[i]
  | .acc u => e.accs.map fun a => a.get u

/-- `MemWrite(a, 1, v)` by the host (R15, R74, R133, R135): the cell is written and valid, the
accumulators are invalid. -/
def memWrite (e : Engine c) (i : Fin 81) (w : LaneWord c) : Engine c :=
  { e with cells := e.cells.set i (some w), accs := none }

/-- Every valid bit cleared (R130); the fault record is kept. -/
def invalidateAll (e : Engine c) : Engine c :=
  { e with cells := Vector.replicate 81 none, accs := none }

/-- `wellformed(d)` (R134): (a) every bit outside the nine-bit lane fields is 0, (b) every lane is 0
or one-hot. -/
def wellFormedData (d : BusWord c) : Bool :=
  decide (andNot d (toBus (onesWord c)) = 0) &&
    (List.finRange c.lanes).all fun j => blankOrOneHot (lane (fromBus d) j)

/-! ### The whole grid, when it is valid -/

/-- The ConstraintGrid with every word valid (R4): what the engine works on. -/
structure Grid (c : Cfg) where
  cells : Vector (LaneWord c) 81
  accs : Accs c
  deriving DecidableEq, Repr

/-- The grid that PROP and RUN work on: there when AV = 1.  AV = 1 implies CALL (R38); in a state that
breaks R38, which no run reaches, a cell without content is not read either (R34), so the grid is
absent (notes/assumptions/4.md). -/
def Engine.grid (e : Engine c) : Option (Grid c) :=
  e.accs.bind fun a => e.words.map fun ws => { cells := ws, accs := a }

/-- The engine with its grid words replaced; every one stays valid (R164, R165). -/
def Engine.withGrid (e : Engine c) (g : Grid c) : Engine c :=
  { e with cells := g.cells.map some, accs := some g.accs }

/-! ### Transactions -/

/-- What a command transaction leaves: the state, `resp` and `rdata` (R16). -/
structure Reply (c : Cfg) where
  engine : Engine c
  response : Response c
  deriving DecidableEq, Repr

/-- `resp <- OK; rdata <- d` (R101). -/
def complete (e : Engine c) (d : BusWord c) : Reply c :=
  { engine := e, response := { resp := .ok, rdata := d } }

/-- A dropped command: `resp = FAULT`, `rdata = 0`, nothing executed, nothing recorded (R207). -/
def drop (e : Engine c) : Reply c :=
  { engine := e, response := { resp := .fault, rdata := 0 } }

/-- `raise X(cmd)`, the fault entry (R206): CAUSE and FCMD are recorded, every other piece of state
keeps its value, and the transaction returns FAULT.  It is executed only while ERR = 0. -/
def raise (x : Cause) (cmd : Word32) (e : Engine c) : Reply c :=
  { engine := { e with fault := some { cause := x, fcmd := cmd } },
    response := { resp := .fault, rdata := 0 } }

/-- `require not ERR` (R207): a faulted block drops the command. -/
def requireNotErr (e : Engine c) (k : Reply c) : Reply c := if e.err then drop e else k

/-- What the block does with a word that decodes to Illegal (R107, R206, R207). -/
def illegalReply (cmd : Word32) (e : Engine c) : Reply c := requireNotErr e (raise .illegal cmd e)

/-! ### The machine's steps around a command -/

/-- The transaction `cmd`, `wdata` stands at the port and `rest` is what the host does after it
(R100). -/
def State.accept (s : State) (cmd : Word32) (wdata : BusWord s.cfg) (rest : List (HostEvent s.cfg)) :
    State :=
  { s with cmd := cmd, wdata := wdata, pending := rest }

/-- The transaction returns (R100). -/
def State.answer (s : State) (r : Reply s.cfg) : State :=
  { s with engine := r.engine, response := some r.response }

/-- Reset applied by the platform (R230): the reset state, whatever the state before; what the host
does afterwards is `rest`.  It is the only event that clears ERR (R208). -/
def applyReset (s : State) (rest : List (HostEvent s.cfg)) : State :=
  { State.resetOf s.cfg with pending := rest }

/-- Reset as a step of the machine (R230). -/
def resetStep (s : State) (rest : List (HostEvent s.cfg)) : Host.Outcome State Fault Refusal :=
  .next (applyReset s rest)

/-- A step with no event from the host: nothing runs by itself, the block waits (R230; the idle step is
the model's, notes/assumptions/2.md). -/
def idleStep (s : State) : Host.Outcome State Fault Refusal := .next s

/-- The host presents one more transaction, before whatever it does else (R100). -/
def State.present (s : State) (cmd : Word32) (wdata : BusWord s.cfg) : State :=
  { s with pending := .command cmd wdata :: s.pending }

/-- A word that decodes to Illegal, as a step of the machine (R107). -/
def execIllegal (s : State) : Host.Outcome State Fault Refusal :=
  .next (s.answer (illegalReply s.cmd s.engine))

end Sys2Proof.Machine
end

