-- ==== Sys2Proof/Machine/AccumulatorInit.lean ====
section
/-!
DEFINITION. The command INIT: the 27 accumulators from the 81 cells (spec/41_accumulator_init.md).
-/

namespace Sys2Proof.Machine

variable {c : Cfg}

/-- The accumulators at the start of INIT: `ONES` in each (R150, R153). -/
def fullAccs (c : Cfg) : Accs c where
  row := Vector.replicate 9 (onesWord c)
  col := Vector.replicate 9 (onesWord c)
  box := Vector.replicate 9 (onesWord c)

/-- One of the 81 inner steps of INIT: the cell's word is cleared out of its row, column and box
accumulator, all lanes at once (R150). -/
def clearCell (cells : Vector (LaneWord c) 81) (a : Accs c) (i : Fin 81) : Accs c :=
  { row := a.row.set (rowOf i) (andNot a.row[rowOf i] cells[i]),
    col := a.col.set (colOf i) (andNot a.col[colOf i] cells[i]),
    box := a.box.set (boxOf i) (andNot a.box[boxOf i] cells[i]) }

/-- The accumulators INIT computes, cell by cell in ascending order (R150; the order does not
matter, R151). -/
def initAccs (cells : Vector (LaneWord c) 81) : Accs c :=
  (List.finRange 81).foldl (clearCell cells) (fullAccs c)

/-- INIT as a transaction (R150): UNINIT unless all 81 cells are valid. -/
def initReply (cmd : Word32) (e : Engine c) : Reply c :=
  requireNotErr e <|
    match e.words with
    | none => raise .uninit cmd e
    | some ws => complete { e with accs := some (initAccs ws) } 0

/-- The meaning of INIT (R150). -/
def execInit (s : State) : Host.Outcome State Fault Refusal :=
  .next (s.answer (initReply s.cmd s.engine))

end Sys2Proof.Machine
end

