-- ==== Sys2Proof/Machine/GridAccess.lean ====
section
/-!
DEFINITION. The grid access commands NEWB, WR and RD (spec/40_grid_access.md).
-/

namespace Sys2Proof.Machine

variable {c : Cfg}

/-- NEWB as a transaction (R130). -/
def newbReply (e : Engine c) : Reply c := requireNotErr e (complete (invalidateAll e) 0)

/-- WR a as a transaction (R133, R134, R135): BAD_ADDR, RO_WRITE and BAD_DATA in that priority. -/
def wrReply (a : Nat) (cmd : Word32) (wdata : BusWord c) (e : Engine c) : Reply c :=
  requireNotErr e <|
    match gridWord a with
    | none => raise .badAddr cmd e
    | some (.acc _) => raise .roWrite cmd e
    | some (.cell i) =>
      if wellFormedData wdata then complete (memWrite e i (fromBus wdata)) 0
      else raise .badData cmd e

/-- RD a as a transaction (R137): BAD_ADDR and UNINIT in that priority. -/
def rdReply (a : Nat) (cmd : Word32) (e : Engine c) : Reply c :=
  requireNotErr e <|
    match gridWord a with
    | none => raise .badAddr cmd e
    | some g =>
      match memRead e g with
      | none => raise .uninit cmd e
      | some w => complete e (toBus w)

/-- The meaning of NEWB (R130). -/
def execNewb (s : State) : Host.Outcome State Fault Refusal := .next (s.answer (newbReply s.engine))

/-- The meaning of WR (R133). -/
def execWr (a : Nat) (s : State) : Host.Outcome State Fault Refusal :=
  .next (s.answer (wrReply a s.cmd s.wdata s.engine))

/-- The meaning of RD (R137). -/
def execRd (a : Nat) (s : State) : Host.Outcome State Fault Refusal :=
  .next (s.answer (rdReply a s.cmd s.engine))

end Sys2Proof.Machine
end

