-- ==== Sys2Proof/Machine/Propagation.lean ====
section
/-!
DEFINITION. The cell step and the commands PROP and RUN (spec/42_propagation.md rules R160 to R168).
-/

namespace Sys2Proof.Machine

variable {c : Cfg}

/-- The four nine-bit values that the cell step of one lane reads and writes (R160, R163). -/
structure LaneQuad where
  row : Mask
  col : Mask
  box : Mask
  cell : Mask
  deriving DecidableEq, Repr

/-- `cand`: the digits the three accumulators leave (R160). -/
def LaneQuad.cand (q : LaneQuad) : Mask := q.row &&& q.col &&& q.box

/-- `step9`, the cell step of one lane (R160, R163). -/
def step9 (q : LaneQuad) : LaneQuad :=
  let v := q.cand ||| q.cell
  if onehot9 v then
    { row := andNot q.row v, col := andNot q.col v, box := andNot q.box v, cell := v }
  else q

/-- The four lane-words that the cell step reads and writes (R78, R160). -/
structure WordQuad (c : Cfg) where
  row : LaneWord c
  col : LaneWord c
  box : LaneWord c
  cell : LaneWord c
  deriving DecidableEq, Repr

/-- Lane j of the four words. -/
def WordQuad.lane (q : WordQuad c) (j : Fin c.lanes) : LaneQuad :=
  { row := Machine.lane q.row j, col := Machine.lane q.col j, box := Machine.lane q.box j,
    cell := Machine.lane q.cell j }

/-- The four words with lane j replaced, every other bit kept (R162). -/
def WordQuad.setLane (q : WordQuad c) (j : Fin c.lanes) (v : LaneQuad) : WordQuad c :=
  { row := Machine.setLane q.row j v.row, col := Machine.setLane q.col j v.col,
    box := Machine.setLane q.box j v.box, cell := Machine.setLane q.cell j v.cell }

/-- The cell step of lane j on the four words: all reads before any write (R160). -/
def WordQuad.stepLane (q : WordQuad c) (j : Fin c.lanes) : WordQuad c := q.setLane j (step9 (q.lane j))

/-- The cell step of every lane.  The lanes are independent, so the order is of no account (R163). -/
def WordQuad.step (q : WordQuad c) : WordQuad c :=
  (List.finRange c.lanes).foldl WordQuad.stepLane q

/-- The four words of cell i: its cell and the accumulators of its row, column and box (R75, R160). -/
def Grid.quad (g : Grid c) (i : Fin 81) : WordQuad c :=
  { row := g.accs.row[rowOf i], col := g.accs.col[colOf i], box := g.accs.box[boxOf i],
    cell := g.cells[i] }

/-- The grid with the four words of cell i replaced. -/
def Grid.setQuad (g : Grid c) (i : Fin 81) (q : WordQuad c) : Grid c :=
  { cells := g.cells.set i q.cell,
    accs :=
      { row := g.accs.row.set (rowOf i) q.row,
        col := g.accs.col.set (colOf i) q.col,
        box := g.accs.box.set (boxOf i) q.box } }

/-- `cellstep(i)` (R160). -/
def cellStep (g : Grid c) (i : Fin 81) : Grid c := g.setQuad i (g.quad i).step

/-- A round: the 81 cell steps in ascending cell index (R165, R166), unconditionally (R167). -/
def gridRound (g : Grid c) : Grid c := (List.finRange 81).foldl cellStep g

/-- r rounds, exactly, whatever the data (R165). -/
def rounds : Nat → Grid c → Grid c
  | 0, g => g
  | r + 1, g => rounds r (gridRound g)

/-- PROP n as a transaction (R164): BAD_ADDR and UNINIT in that priority. -/
def propReply (n : Nat) (cmd : Word32) (e : Engine c) : Reply c :=
  requireNotErr e <|
    match cellIndex n with
    | none => raise .badAddr cmd e
    | some i =>
      match e.grid with
      | none => raise .uninit cmd e
      | some g => complete (e.withGrid (cellStep g i)) 0

/-- RUN r as a transaction (R165): UNINIT when AV = 0, also for r = 0. -/
def runReply (r : Nat) (cmd : Word32) (e : Engine c) : Reply c :=
  requireNotErr e <|
    match e.grid with
    | none => raise .uninit cmd e
    | some g => complete (e.withGrid (rounds r g)) 0

/-- The meaning of PROP (R164). -/
def execProp (n : Nat) (s : State) : Host.Outcome State Fault Refusal :=
  .next (s.answer (propReply n s.cmd s.engine))

/-- The meaning of RUN (R165). -/
def execRun (r : Nat) (s : State) : Host.Outcome State Fault Refusal :=
  .next (s.answer (runReply r s.cmd s.engine))

end Sys2Proof.Machine
end

