-- ==== Sys2Proof/Machine/SystemCommands.lean ====
section
/-!
DEFINITION. The system commands NOP and RDCSR (spec/43_system.md).
-/

namespace Sys2Proof.Machine

variable {c : Cfg}

/-- NOP as a transaction (R190). -/
def nopReply (e : Engine c) : Reply c := requireNotErr e (complete e 0)

/-- RDCSR n as a transaction (R191): for n in 0..3 it answers in the faulted state too; for n above 3
it raises BAD_ADDR, or is dropped when the block is faulted (R207). -/
def rdcsrReply (n : Nat) (cmd : Word32) (e : Engine c) : Reply c :=
  match csrOf n with
  | some r => complete e (csrValue r e)
  | none => requireNotErr e (raise .badAddr cmd e)

/-- The meaning of NOP (R190). -/
def execNop (s : State) : Host.Outcome State Fault Refusal := .next (s.answer (nopReply s.engine))

/-- The meaning of RDCSR (R191). -/
def execRdcsr (n : Nat) (s : State) : Host.Outcome State Fault Refusal :=
  .next (s.answer (rdcsrReply n s.cmd s.engine))

end Sys2Proof.Machine
end

