-- ==== Sys2Proof/Machine/Dispatch.lean ====
section
/-!
DEFINITION. Which meaning each command has (spec/30_encoding.md rule R105).
-/

namespace Sys2Proof.Machine

def exec (i : Instr) (s : State) : Host.Outcome State Fault Refusal :=
  match i with
  | .nop => Sys2Proof.Machine.execNop s
  | .newb => Sys2Proof.Machine.execNewb s
  | .wr a => Sys2Proof.Machine.execWr a s
  | .rd a => Sys2Proof.Machine.execRd a s
  | .init => Sys2Proof.Machine.execInit s
  | .prop c => Sys2Proof.Machine.execProp c s
  | .run r => Sys2Proof.Machine.execRun r s
  | .rdcsr n => Sys2Proof.Machine.execRdcsr n s

end Sys2Proof.Machine
end

