-- ==== Sys2Proof/Machine/Step.lean ====
section
/-!
DEFINITION. One step of the machine: the next event of the host (spec/00_scope.md rules R6, R16;
spec/30_encoding.md rule R100).
-/

namespace Sys2Proof.Machine

/-- One step.  The block takes the next event the host presents: a command transaction, performed as
one atomic transition (R100), or reset (R230).  With no event nothing runs by itself: the block
waits (R230), and the state is as it was (notes/assumptions/2.md). -/
def step (s : State) : Host.Outcome State Fault Refusal :=
  match s.pending with
  | [] => idleStep s
  | .reset :: rest => resetStep s rest
  | .command cmd wdata :: rest =>
    match decode cmd with
    | .ok i => exec i (s.accept cmd wdata rest)
    | .error _ => execIllegal (s.accept cmd wdata rest)

/-- The state whose next event is the transaction of the command word `w`, with `wdata` all zeros
(notes/assumptions/5.md), before whatever the host does else.  A command word is 32 bits (R103), so the
bits above `nbits` have no place beyond it. -/
def State.withFetchWord (s : State) (_nbits w : Nat) : State :=
  s.present (BitVec.ofNat 32 w) 0

end Sys2Proof.Machine
end

