-- ==== Sys2Proof/Machine/Batch.lean ====
section
/-!
DEFINITION. What a host presents: commands with their data words, the pseudo-instructions
(spec/30_encoding.md rule R109), the packing of a batch of boards (spec/20_memory.md rule R73) and the command sequence of a
batch (spec/70_reset_and_hazards.md rule R232).
-/

namespace Sys2Proof.Machine

variable {c : Cfg}

/-- A command with the data word that travels beside it (R104).  Only WR uses the data word (R102). -/
structure HostCommand (c : Cfg) where
  instr : Instr
  wdata : BusWord c
  deriving DecidableEq, Repr

/-- The transaction that presents a command (R100, R105). -/
def HostCommand.event (h : HostCommand c) : HostEvent c := .command (encode h.instr) h.wdata

/-- A command that uses no data word, presented with `wdata = 0`.  DESIGN CHOICE
(notes/assumptions/11.md): R102 accepts any value beside a command other than WR, and R109 and R232
name none. -/
def plain (i : Instr) : HostCommand c := { instr := i, wdata := 0 }

/-- The pseudo-instructions (R109).  The index of a unit is 0..8, so it is a `Fin 9`. -/
inductive Pseudo (c : Cfg) where
  | round
  | solve (r : Nat)
  | rdrow (u : Fin 9)
  | rdcol (u : Fin 9)
  | rdbox (u : Fin 9)
  | rdstat
  | rddone
  | loadg (words : Vector (BusWord c) 81)
  deriving DecidableEq, Repr

/-- Writes of the given cells, in the given order, each with its word. -/
def writeCells (order : List (Fin 81)) (words : Vector (BusWord c) 81) : List (HostCommand c) :=
  order.map fun i => { instr := .wr i.val, wdata := words[i] }

/-- 81 writes in ascending address order (R109, LOADG). -/
def loadGrid (words : Vector (BusWord c) 81) : List (HostCommand c) :=
  writeCells (List.finRange 81) words

/-- The expansion of a pseudo-instruction (R109).  The `wdata = 0` beside its commands other than WR is
the model's choice (notes/assumptions/11.md). -/
def Pseudo.expand : Pseudo c → List (HostCommand c)
  | .round => [plain (.run 1)]
  | .solve r => [plain .init, plain (.run r)]
  | .rdrow u => [plain (.rd (81 + u.val))]
  | .rdcol u => [plain (.rd (90 + u.val))]
  | .rdbox u => [plain (.rd (99 + u.val))]
  | .rdstat => [plain (.rdcsr 1)]
  | .rddone => [plain (.rdcsr 3)]
  | .loadg words => loadGrid words

/-- The word a host writes to a cell: lane j is the mask of the digit of puzzle j (R73). -/
def clueWord (boards : Fin c.lanes → Fin 81 → Fin 10) (i : Fin 81) : BusWord c :=
  toBus (packLanes fun j => maskOfDigit (boards j i))

/-- The data words of a batch of LANES boards (R73, R232). -/
def clueWords (boards : Fin c.lanes → Fin 81 → Fin 10) : Vector (BusWord c) 81 :=
  Vector.ofFn (clueWord boards)

/-- Reads of the given grid words, in the given order. -/
def readWords (reads : List (Fin 108)) : List (HostCommand c) :=
  reads.map fun a => plain (.rd a.val)

/-- What the host chooses in a batch run (R232 step (3), R237): NEWB or not, the 81 words and the
order they are written in, the number of rounds, and the grid words it reads, in their order. -/
structure Batch (c : Cfg) where
  newb : Bool
  words : Vector (BusWord c) 81
  order : List (Fin 81)
  rounds : Nat
  reads : List (Fin 108)
  deriving DecidableEq, Repr

/-- The choices are a batch run's (R232 step (3), R237): every cell is written once, in any order; the
number of rounds is what RUN can hold; every cell is read once and any accumulators once, in any
order.  (What R232 leaves open here: notes/assumptions/10.md and, for `wdata`, 11.md.) -/
structure Batch.Valid (b : Batch c) : Prop where
  order : b.order.Perm (List.finRange 81)
  rounds : b.rounds < 256
  reads : b.reads.Nodup
  cells : ∀ a : Fin 108, a.val ≤ 80 → a ∈ b.reads

/-- The commands of a batch run up to the reads: steps (a) to (e) of R232. -/
def Batch.commandsToDone (b : Batch c) : List (HostCommand c) :=
  (if b.newb then [plain .newb] else []) ++ writeCells b.order b.words ++
    [plain .init, plain (.run b.rounds), plain (.rdcsr 3)]

/-- The commands of a batch run: steps (a) to (f) of R232.  The `wdata = 0` beside NEWB, INIT, RUN,
RDCSR and RD is the model's choice, where R102 and R237 let the host send any value
(notes/assumptions/11.md). -/
def Batch.commands (b : Batch c) : List (HostCommand c) := b.commandsToDone ++ readWords b.reads

/-- One batch run among those R232 allows: cells written in ascending order, and all 108 words read in
ascending order.  DESIGN CHOICE (notes/assumptions/10.md): R232 lets the writes come in any order,
R237 the reads too, and R232 reads accumulators only for the lanes that go on to the host's fallback
solver. -/
def Batch.ascending (newb : Bool) (words : Vector (BusWord c) 81) (r : Nat) : Batch c :=
  { newb := newb, words := words, order := List.finRange 81, rounds := r,
    reads := List.finRange 108 }

/-- The commands of the ascending batch run of r rounds.  DESIGN CHOICE (notes/assumptions/10.md): its
orders, and that it reads all 27 accumulators, are the model's; `Batch` is the general form. -/
def batchRun (newb : Bool) (words : Vector (BusWord c) 81) (r : Nat) : List (HostCommand c) :=
  (Batch.ascending newb words r).commands

/-- The machine with the host's commands waiting at the port, in order (R80). -/
def State.withCommands (s : State) (l : List (HostCommand s.cfg)) : State :=
  { s with pending := l.map HostCommand.event }

end Sys2Proof.Machine
end

