-- ==== Sys2Proof/Safety.lean ====
section
/-!
DEFINITION. What the spec says of good states and good runs: the legal states of spec/10_state.md rules R33, R38,
R39, R45, the invariant INV of spec/42_propagation.md rule R170, the vocabulary of the laws of elimination, and a batch
run that has ended well (spec/70_reset_and_hazards.md rule R234).
-/

namespace Sys2Proof.Machine

variable {c : Cfg}

/-! ### Legal states -/

/-- A word a cell may hold: every lane 0 or one-hot, every pad bit 0 (R33). -/
def LegalCellWord (w : LaneWord c) : Prop :=
  padBits w = 0 ∧ ∀ j : Fin c.lanes, blankOrOneHot (lane w j) = true

/-- INV, for a grid (R170): in every lane, bit k of a unit's accumulator is 0 if and only if some
cell of the unit holds the digit k+1. -/
def Grid.Inv (g : Grid c) : Prop :=
  ∀ (u : GridUnit) (j : Fin c.lanes) (k : Fin 9),
    (lane (g.accs.get u) j).getLsbD k.val = false ↔
      ∃ i : Fin 81, u.has i ∧ lane g.cells[i] j = 1#9 <<< k.val

/-- A grid whose cells are legal and whose accumulators have no pad bit and satisfy INV. -/
structure Grid.Legal (g : Grid c) : Prop where
  cells : ∀ i : Fin 81, LegalCellWord g.cells[i]
  accPads : ∀ u : GridUnit, padBits (g.accs.get u) = 0
  inv : g.Inv

/-- The command word of a fault record can raise the cause of the record (R201, R202). -/
def FaultRecord.Fits (f : FaultRecord) : Prop :=
  match f.cause, decode f.fcmd with
  | .illegal, .error _ => True
  | .badAddr, .ok (.wr a) => 107 < a
  | .badAddr, .ok (.rd a) => 107 < a
  | .badAddr, .ok (.prop n) => 80 < n
  | .badAddr, .ok (.rdcsr n) => 3 < n
  | .roWrite, .ok (.wr a) => 81 ≤ a ∧ a ≤ 107
  | .badData, .ok (.wr a) => a ≤ 80
  | .uninit, .ok (.rd a) => a ≤ 107
  | .uninit, .ok .init => True
  | .uninit, .ok (.prop n) => n ≤ 80
  | .uninit, .ok (.run _) => True
  | _, _ => False

/-- What holds of the block in every reachable state. -/
structure Engine.Legal (e : Engine c) : Prop where
  /-- R33. -/
  cells : ∀ (i : Fin 81) (w : LaneWord c), e.cells[i] = some w → LegalCellWord w
  /-- R38: AV = 1 implies CALL. -/
  callOfAv : e.av = true → e.call = true
  /-- R39: the pad bits of the accumulators are 0. -/
  accPads : ∀ a : Accs c, e.accs = some a → ∀ u : GridUnit, padBits (a.get u) = 0
  /-- R170: INV whenever AV = 1. -/
  inv : ∀ g : Grid c, e.grid = some g → g.Inv
  /-- R201, R202. -/
  record : ∀ f : FaultRecord, e.fault = some f → f.Fits

/-! ### The words of the laws of elimination -/

/-- Lane j of the two grids is the same: every cell and every accumulator (R173). -/
def Grid.SameLane (j : Fin c.lanes) (g g' : Grid c) : Prop :=
  (∀ i : Fin 81, lane g.cells[i] j = lane g'.cells[i] j) ∧
    ∀ u : GridUnit, lane (g.accs.get u) j = lane (g'.accs.get u) j

/-- Lane j of the two blocks is the same: the same words are valid, lane j of every stored word is
the same, and so is the fault record (R83). -/
def Engine.SameLane (j : Fin c.lanes) (e e' : Engine c) : Prop :=
  (∀ i : Fin 81, (e.cells[i]).map (fun w => lane w j) = (e'.cells[i]).map (fun w => lane w j)) ∧
    (∀ u : GridUnit,
      e.accs.map (fun a => lane (a.get u) j) = e'.accs.map (fun a => lane (a.get u) j)) ∧
    e.fault = e'.fault

/-- The cell is solved in the lane (R13). -/
abbrev Grid.Solved (g : Grid c) (i : Fin 81) (j : Fin c.lanes) : Prop :=
  onehot9 (lane g.cells[i] j) = true

/-- A full assignment of digits (digit d is `d - 1`) in which every unit holds each digit once
(R175). -/
def ValidSudoku (sol : Fin 81 → Fin 9) : Prop :=
  ∀ (k : UnitKind) (i i' : Fin 81), unitOf k i = unitOf k i' → sol i = sol i' → i = i'

/-- Every solved cell of lane j agrees with the assignment (R175). -/
def Grid.Agrees (g : Grid c) (j : Fin c.lanes) (sol : Fin 81 → Fin 9) : Prop :=
  ∀ i : Fin 81, g.Solved i j → lane g.cells[i] j = 1#9 <<< (sol i).val

/-- No unit of lane j holds the same digit in two cells (R177). -/
def Grid.NoDuplicate (g : Grid c) (j : Fin c.lanes) : Prop :=
  ∀ (k : UnitKind) (i i' : Fin 81), unitOf k i = unitOf k i' → g.Solved i j →
    lane g.cells[i] j = lane g.cells[i'] j → i = i'

/-- The cells stepped in a given order, as a host can do with PROP (R164, R176). -/
def stepCells (l : List (Fin 81)) (g : Grid c) : Grid c := l.foldl cellStep g

/-- No cell step changes lane j any more (R173). -/
def Grid.LaneAtRest (g : Grid c) (j : Fin c.lanes) : Prop :=
  ∀ i : Fin 81, g.SameLane j (cellStep g i)

/-! ### What a transaction leaves, and runs -/

/-- The state a command leaves that completes: the given block, `resp = OK`, the given `rdata`; nothing
else changes (R101). -/
def State.completed (s : State) (e : Engine s.cfg) (d : BusWord s.cfg) : State :=
  { s with engine := e, response := some { resp := .ok, rdata := d } }

/-- The state a fault entry leaves (R206): ERR, CAUSE and FCMD written, FAULT and zeros returned, and C,
CV, ROW, COL, BOX, AV as they were. -/
def State.faultedBy (s : State) (x : Cause) : State :=
  { s with
    engine := { s.engine with fault := some { cause := x, fcmd := s.cmd } },
    response := some { resp := .fault, rdata := 0 } }

/-- The state a dropped command leaves (R207): FAULT and zeros returned, nothing else. -/
def State.dropped (s : State) : State := { s with response := some { resp := .fault, rdata := 0 } }

/-- A batch run has ended well (R234): the commands of the batch run b (R232 step (3)), presented in the
state s, have all returned and left the state t, and the last of them has returned `resp = OK`.  A
run of the host with another `wdata` beside a command other than WR is no `Batch`
(notes/assumptions/11.md). -/
structure State.EndedWell (s : State) (b : Batch s.cfg) (t : State) : Prop where
  batch : b.Valid
  ran : Host.Core.run Sys2Proof.core b.commands.length (s.withCommands b.commands) = .next t
  lastOk : ∃ d : BusWord t.cfg, t.response = some { resp := .ok, rdata := d }

/-- Each of the commands, presented in the state s, has returned `resp = OK` (R234). -/
def State.EveryCommandOk (s : State) (l : List (HostCommand s.cfg)) : Prop :=
  ∀ n : Nat, n < l.length → ∃ (t : State) (d : BusWord t.cfg),
    Host.Core.run Sys2Proof.core (n + 1) (s.withCommands l) = .next t ∧
      t.response = some { resp := .ok, rdata := d }

end Sys2Proof.Machine
end

