-- ==== Sys2Proof/Certificates/Slice0/Obligations.lean ====
section
/-!
DEFINITION. The statements for the provers.  Each docstring names the rules of spec/ it formalises.
-/

open Sys2Proof Sys2Proof.Machine

/-! ### Encoding and decoding (spec/30_encoding.md) -/

/-- R103 to R106: decoding the command word of a well-formed command gives the command back, with
its operand whole. -/
def Obligations.DecodeOfEncode : Prop :=
  ∀ i : Instr, i.wf = true → decode (encode i) = .ok i

/-- R103 to R106: a word that decodes is the command word of what it decodes to, so each command has
one word and no bit of a word is ignored. -/
def Obligations.EncodeOfDecode : Prop :=
  ∀ (w : Word32) (i : Instr), decode w = .ok i → i.wf = true ∧ encode i = w

/-- R105: the eight rows of the opcode map, by their `match` and `mask`, with ARG as it stands. -/
def Obligations.DecodeSelectsTableRow : Prop :=
  ∀ w : Word32,
    (decode w = .ok .nop ↔ w &&& 0xFFFFFFFF#32 = 0x00000000#32) ∧
    (decode w = .ok .newb ↔ w &&& 0xFFFFFFFF#32 = 0x01000000#32) ∧
    (decode w = .ok .init ↔ w &&& 0xFFFFFFFF#32 = 0x04000000#32) ∧
    (∀ a, decode w = .ok (.wr a) ↔
      w &&& 0xFFFFFF00#32 = 0x02000000#32 ∧ a = (w &&& 0x000000FF#32).toNat) ∧
    (∀ a, decode w = .ok (.rd a) ↔
      w &&& 0xFFFFFF00#32 = 0x03000000#32 ∧ a = (w &&& 0x000000FF#32).toNat) ∧
    (∀ n, decode w = .ok (.prop n) ↔
      w &&& 0xFFFFFF00#32 = 0x05000000#32 ∧ n = (w &&& 0x000000FF#32).toNat) ∧
    (∀ r, decode w = .ok (.run r) ↔
      w &&& 0xFFFFFF00#32 = 0x06000000#32 ∧ r = (w &&& 0x000000FF#32).toNat) ∧
    (∀ n, decode w = .ok (.rdcsr n) ↔
      w &&& 0xFFFFFF00#32 = 0x07000000#32 ∧ n = (w &&& 0x000000FF#32).toNat)

/-- R106 (marked there as derived from R103 and R105): exactly 1283 words decode to a command. -/
def Obligations.LegalWordsAreCounted : Prop :=
  ∃ l : List Word32, l.Nodup ∧ l.length = 1283 ∧ ∀ w : Word32, w ∈ l ↔ ∃ i, decode w = .ok i

/-- V1 of spec/95_test_vectors.md, from R105 and R106: words and what they decode to. -/
def Obligations.SampleWordsDecode : Prop :=
  decode 0x00000000#32 = .ok .nop ∧ decode 0x01000000#32 = .ok .newb ∧
  decode 0x0200006C#32 = .ok (.wr 108) ∧ decode 0x030000FF#32 = .ok (.rd 255) ∧
  decode 0x04000000#32 = .ok .init ∧ decode 0x05000028#32 = .ok (.prop 40) ∧
  decode 0x060000FF#32 = .ok (.run 255) ∧ decode 0x07000003#32 = .ok (.rdcsr 3) ∧
  decode 0x00000001#32 = .error .argNonzero ∧ decode 0x08000000#32 = .error .reservedOpc ∧
  decode 0x06000105#32 = .error .mbzNonzero ∧ decode 0x06800005#32 = .error .mbzNonzero

/-! ### The step (spec/00_scope.md R6, R16; spec/30_encoding.md R100) -/

/-- A step runs the decoded command: the transaction at the head of the host's stream is taken to
the port, and the step is `exec` of its command there.  (The stream of events as data is the
model's: notes/assumptions/2.md.) -/
def Obligations.StepRunsDecodedCommand : Prop :=
  ∀ (s : State) (cmd : Word32) (wdata : BusWord s.cfg) (rest : List (HostEvent s.cfg)) (i : Instr),
    s.pending = .command cmd wdata :: rest → decode cmd = .ok i →
      step s = exec i { s with cmd := cmd, wdata := wdata, pending := rest }

/-- R107, with R106: a word with a non-zero MBZ field, an opcode above 0x07, or a non-zero ARG on
NOP, NEWB or INIT raises ILLEGAL, and no other state of the block changes. -/
def Obligations.IllegalWordFaults : Prop :=
  ∀ (s : State) (cmd : Word32) (wdata : BusWord s.cfg) (rest : List (HostEvent s.cfg)),
    s.pending = .command cmd wdata :: rest → s.engine.err = false →
    (cmd.extractLsb' 8 16 ≠ 0#16 ∨ 7 < (cmd.extractLsb' 24 8).toNat ∨
      ((cmd.extractLsb' 24 8 = 0x00#8 ∨ cmd.extractLsb' 24 8 = 0x01#8 ∨
        cmd.extractLsb' 24 8 = 0x04#8) ∧ cmd.extractLsb' 0 8 ≠ 0#8)) →
      step s =
        .next (State.faultedBy { s with cmd := cmd, wdata := wdata, pending := rest } .illegal)

/-- R230, R49: reset gives the reset state whatever the state before, in a faulted block too: every
valid bit 0, no word readable, no fault, STATUS, FCMD and LDONE zero, CONFIG unchanged.  That the
port is left with cmd = 0, wdata = 0 and no response is the model's choice and no rule of the spec
(notes/assumptions/3.md, DESIGN CHOICE); that reset is an event of the host's stream is the model's
form (notes/assumptions/2.md, DEDUCED). -/
def Obligations.ResetGivesResetState : Prop :=
  ∀ (s : State) (rest : List (HostEvent s.cfg)), s.pending = .reset :: rest →
    step s = .next { State.resetOf s.cfg with pending := rest } ∧
    (∀ i : Fin 81, (Engine.reset s.cfg).cv i = false) ∧ (Engine.reset s.cfg).av = false ∧
    (Engine.reset s.cfg).err = false ∧ (∀ g, memRead (Engine.reset s.cfg) g = none) ∧
    statusReg (Engine.reset s.cfg) = 0 ∧ fcmdReg (Engine.reset s.cfg) = 0 ∧
    ldoneReg (Engine.reset s.cfg) = 0

/-- With no event of the host nothing runs by itself.  The idle step is the model's reading of "the
block waits for the first command" (notes/assumptions/2.md, DEDUCED). -/
def Obligations.IdleStepWaits : Prop :=
  ∀ s : State, s.pending = [] → step s = .next s

/-- Every command terminates and every word has an outcome (R106, R238): a step always answers a
next state (the idle step is the model's, notes/assumptions/2.md), and it never changes the
configuration (R31, R43). -/
def Obligations.StepAlwaysCompletes : Prop :=
  ∀ s : State, ∃ t, step s = .next t ∧ t.cfg = s.cfg

/-! ### The commands: where each completes, and what it leaves -/

/-- R190: NOP does nothing; its word is zero; a faulted block drops it. -/
def Obligations.NopCompletes : Prop :=
  encode .nop = 0x00000000#32 ∧
  ∀ s : State,
    (s.engine.err = false → exec .nop s = .next (s.completed s.engine 0)) ∧
    (s.engine.err = true → exec .nop s = .next s.dropped)

/-- R130: NEWB clears every valid bit, after which no word of the grid can be read; ERR, CAUSE and
FCMD keep their values.  A faulted block drops it. -/
def Obligations.NewbInvalidatesGrid : Prop :=
  encode .newb = 0x01000000#32 ∧
  ∀ s : State,
    (s.engine.err = false →
      ∃ e : Engine s.cfg, exec .newb s = .next (s.completed e 0) ∧
        (∀ i : Fin 81, e.cv i = false) ∧ e.av = false ∧ (∀ g, memRead e g = none) ∧
        e.fault = s.engine.fault) ∧
    (s.engine.err = true → exec .newb s = .next s.dropped)

/-- R133, whole: WR to a cell with well-formed data stores the word, marks the cell valid and the
accumulators invalid, and keeps every other cell with its valid bit; data that is not well formed
raises BAD_DATA, an accumulator's address RO_WRITE whatever the data, an address above 107 BAD_ADDR,
and then nothing is stored; a faulted block drops it. -/
def Obligations.WrStoresCell : Prop :=
  (∀ a, a < 256 → encode (.wr a) = 0x02000000#32 ||| BitVec.ofNat 32 a) ∧
  ∀ s : State,
    (s.engine.err = false →
      (∀ i : Fin 81, wellFormedData s.wdata = true →
        ∃ e : Engine s.cfg, exec (.wr i.val) s = .next (s.completed e 0) ∧
          memRead e (.cell i) = some (s.wdata.setWidth s.cfg.wordBits) ∧ e.cv i = true ∧
          (∀ k : Fin 81, k ≠ i → memRead e (.cell k) = memRead s.engine (.cell k)) ∧
          e.av = false ∧ e.fault = s.engine.fault) ∧
      (∀ a, a ≤ 80 → wellFormedData s.wdata = false →
        exec (.wr a) s = .next (s.faultedBy .badData)) ∧
      (∀ a, 81 ≤ a → a ≤ 107 → exec (.wr a) s = .next (s.faultedBy .roWrite)) ∧
      ∀ a, 107 < a → exec (.wr a) s = .next (s.faultedBy .badAddr)) ∧
    (s.engine.err = true → ∀ a, exec (.wr a) s = .next s.dropped)

/-- R137, whole: RD of a valid word returns it, zero-extended to BUS_BITS, and changes no state: the
cells at 0..80, ROW at 81..89, COL at 90..98, BOX at 99..107.  RD of an invalid cell, or of an
accumulator while AV = 0, raises UNINIT, an address above 107 BAD_ADDR; a faulted block drops it. -/
def Obligations.RdReturnsWord : Prop :=
  (∀ a, a < 256 → encode (.rd a) = 0x03000000#32 ||| BitVec.ofNat 32 a) ∧
  ∀ s : State,
    (s.engine.err = false →
      (∀ (i : Fin 81) (w : LaneWord s.cfg), s.engine.cells[i] = some w →
        exec (.rd i.val) s = .next (s.completed s.engine (w.setWidth s.cfg.busBits))) ∧
      (∀ (a : Accs s.cfg) (u : Fin 9), s.engine.accs = some a →
        exec (.rd (81 + u.val)) s =
          .next (s.completed s.engine (a.row[u].setWidth s.cfg.busBits)) ∧
        exec (.rd (90 + u.val)) s =
          .next (s.completed s.engine (a.col[u].setWidth s.cfg.busBits)) ∧
        exec (.rd (99 + u.val)) s =
          .next (s.completed s.engine (a.box[u].setWidth s.cfg.busBits))) ∧
      (∀ i : Fin 81, s.engine.cv i = false →
        exec (.rd i.val) s = .next (s.faultedBy .uninit)) ∧
      (s.engine.av = false → ∀ a, 81 ≤ a → a ≤ 107 →
        exec (.rd a) s = .next (s.faultedBy .uninit)) ∧
      ∀ a, 107 < a → exec (.rd a) s = .next (s.faultedBy .badAddr)) ∧
    (s.engine.err = true → ∀ a, exec (.rd a) s = .next s.dropped)

/-- R150, R152: INIT with all 81 cells valid changes no cell and leaves in every accumulator, lane
by lane, exactly the digits that no cell of its unit holds, with every pad bit 0.  With some cell
invalid it raises UNINIT; a faulted block drops it. -/
def Obligations.InitBuildsAccumulators : Prop :=
  encode .init = 0x04000000#32 ∧
  ∀ s : State,
    (s.engine.err = false →
      (∀ ws : Vector (LaneWord s.cfg) 81, (∀ i : Fin 81, s.engine.cells[i] = some ws[i]) →
        ∃ a : Accs s.cfg,
          exec .init s = .next (s.completed { s.engine with accs := some a } 0) ∧
          (∀ u : GridUnit, padBits (a.get u) = 0) ∧
          ∀ (u : GridUnit) (j : Fin s.cfg.lanes) (k : Fin 9),
            (lane (a.get u) j).getLsbD k.val = true ↔
              ∀ i : Fin 81, u.has i → (lane ws[i] j).getLsbD k.val = false) ∧
      ∀ i : Fin 81, s.engine.cv i = false → exec .init s = .next (s.faultedBy .uninit)) ∧
    (s.engine.err = true → exec .init s = .next s.dropped)

/-- R160, R162, R164: PROP of a cell, in every lane: the four values are read, and where `v = cand |
cell` is one-hot the cell becomes v and v is cleared from the three accumulators; otherwise the lane
keeps its four values.  Every other cell, every other accumulator and every pad bit is unchanged.
With AV = 0 it raises UNINIT, with an index above 80 BAD_ADDR; a faulted block drops it. -/
def Obligations.PropDoesOneCellStep : Prop :=
  (∀ n, n < 256 → encode (.prop n) = 0x05000000#32 ||| BitVec.ofNat 32 n) ∧
  ∀ s : State,
    (s.engine.err = false →
      (∀ (g : Grid s.cfg) (i : Fin 81),
        s.engine.accs = some g.accs → (∀ k : Fin 81, s.engine.cells[k] = some g.cells[k]) →
        ∃ g' : Grid s.cfg,
          exec (.prop i.val) s =
            .next (s.completed
              { s.engine with cells := g'.cells.map some, accs := some g'.accs } 0) ∧
          (∀ j : Fin s.cfg.lanes,
            let cand := lane g.accs.row[rowOf i] j &&& lane g.accs.col[colOf i] j &&&
              lane g.accs.box[boxOf i] j
            let v := cand ||| lane g.cells[i] j
            (onehot9 v = true →
              lane g'.cells[i] j = v ∧
              lane g'.accs.row[rowOf i] j = lane g.accs.row[rowOf i] j &&& ~~~v ∧
              lane g'.accs.col[colOf i] j = lane g.accs.col[colOf i] j &&& ~~~v ∧
              lane g'.accs.box[boxOf i] j = lane g.accs.box[boxOf i] j &&& ~~~v) ∧
            (onehot9 v = false →
              lane g'.cells[i] j = lane g.cells[i] j ∧
              lane g'.accs.row[rowOf i] j = lane g.accs.row[rowOf i] j ∧
              lane g'.accs.col[colOf i] j = lane g.accs.col[colOf i] j ∧
              lane g'.accs.box[boxOf i] j = lane g.accs.box[boxOf i] j)) ∧
          (∀ k : Fin 81, k ≠ i → g'.cells[k] = g.cells[k]) ∧
          (∀ u : GridUnit, ¬ u.has i → g'.accs.get u = g.accs.get u) ∧
          (∀ k : Fin 81, padBits g'.cells[k] = padBits g.cells[k]) ∧
          (∀ u : GridUnit, padBits (g'.accs.get u) = padBits (g.accs.get u))) ∧
      (s.engine.av = false → ∀ n, n ≤ 80 → exec (.prop n) s = .next (s.faultedBy .uninit)) ∧
      ∀ n, 80 < n → exec (.prop n) s = .next (s.faultedBy .badAddr)) ∧
    (s.engine.err = true → ∀ n, exec (.prop n) s = .next s.dropped)

/-- R165, R166: RUN r, with AV = 1, is exactly r times the 81 cell steps in ascending cell index,
whatever the data; it changes no valid bit and no fault record.  With AV = 0 it raises UNINIT, for r
= 0 too; a faulted block drops it. -/
def Obligations.RunDoesRounds : Prop :=
  (∀ r, r < 256 → encode (.run r) = 0x06000000#32 ||| BitVec.ofNat 32 r) ∧
  ∀ (s : State) (r : Nat),
    (s.engine.err = false →
      (∀ g : Grid s.cfg,
        s.engine.accs = some g.accs → (∀ k : Fin 81, s.engine.cells[k] = some g.cells[k]) →
        ∃ g' : Grid s.cfg,
          g' = (List.replicate r (List.finRange 81)).flatten.foldl cellStep g ∧
          exec (.run r) s =
            .next (s.completed
              { s.engine with cells := g'.cells.map some, accs := some g'.accs } 0)) ∧
      (s.engine.av = false → exec (.run r) s = .next (s.faultedBy .uninit))) ∧
    (s.engine.err = true → exec (.run r) s = .next s.dropped)

/-- R191, with R42 to R46: RDCSR n, in a faulted block too, returns for n = 0 the constant CONFIG of
the configuration, for n = 1 the bits of STATUS, for n = 2 FCMD (0 without a fault), for n = 3
LDONE, whose bit j is 1 when every cell is valid and one-hot in lane j and whose upper bits are 0;
it changes no state.  For n above 3 it raises BAD_ADDR, or is dropped in a faulted block. -/
def Obligations.RdcsrReadsRegisters : Prop :=
  (∀ n, n < 256 → encode (.rdcsr n) = 0x07000000#32 ||| BitVec.ofNat 32 n) ∧
  ∀ s : State,
    exec (.rdcsr 0) s = .next (s.completed s.engine
      (match s.cfg with
        | .l7 => 0x00000907
        | .l16 => 0x00001010)) ∧
    exec (.rdcsr 1) s = .next (s.completed s.engine
      (BitVec.ofNat s.cfg.busBits
        (s.engine.err.toNat + 2 * s.engine.av.toNat +
          4 * (decide (∀ i : Fin 81, s.engine.cv i = true)).toNat +
          16 * (match s.engine.fault with
            | none => 0
            | some ⟨.illegal, _⟩ => 1
            | some ⟨.badAddr, _⟩ => 2
            | some ⟨.roWrite, _⟩ => 3
            | some ⟨.badData, _⟩ => 4
            | some ⟨.uninit, _⟩ => 5)))) ∧
    exec (.rdcsr 2) s = .next (s.completed s.engine
      (match s.engine.fault with
        | none => 0
        | some f => f.fcmd.setWidth s.cfg.busBits)) ∧
    (∃ d : BusWord s.cfg, exec (.rdcsr 3) s = .next (s.completed s.engine d) ∧
      (∀ j : Fin s.cfg.lanes, d.getLsbD j.val = true ↔
        ∀ i : Fin 81, ∃ w, s.engine.cells[i] = some w ∧ onehot9 (lane w j) = true) ∧
      ∀ b, s.cfg.lanes ≤ b → d.getLsbD b = false) ∧
    (∀ n, 3 < n →
      (s.engine.err = false → exec (.rdcsr n) s = .next (s.faultedBy .badAddr)) ∧
      (s.engine.err = true → exec (.rdcsr n) s = .next s.dropped))

/-! ### Faults (spec/60_exceptions.md) -/

/-- R202, R204: which word raises which fault, exactly, with the priority of R204, in a legal block
that is not faulted; whatever raises a fault does exactly what fault entry does (R206). -/
def Obligations.FaultsAreExactlyAsListed : Prop :=
  ∀ (s : State) (cmd : Word32) (wdata : BusWord s.cfg) (rest : List (HostEvent s.cfg)),
    s.engine.Legal → s.engine.err = false → s.pending = .command cmd wdata :: rest →
    (∀ x : Cause,
      step s = .next (State.faultedBy { s with cmd := cmd, wdata := wdata, pending := rest } x) ↔
        match x, decode cmd with
        | .illegal, .error _ => True
        | .badAddr, .ok (.wr a) => 107 < a
        | .badAddr, .ok (.rd a) => 107 < a
        | .badAddr, .ok (.prop n) => 80 < n
        | .badAddr, .ok (.rdcsr n) => 3 < n
        | .roWrite, .ok (.wr a) => 81 ≤ a ∧ a ≤ 107
        | .badData, .ok (.wr a) => a ≤ 80 ∧ wellFormedData wdata = false
        | .uninit, .ok (.rd a) =>
          (∃ i : Fin 81, a = i.val ∧ s.engine.cv i = false) ∨
            (81 ≤ a ∧ a ≤ 107 ∧ s.engine.av = false)
        | .uninit, .ok .init => ∃ i : Fin 81, s.engine.cv i = false
        | .uninit, .ok (.prop n) => n ≤ 80 ∧ s.engine.av = false
        | .uninit, .ok (.run _) => s.engine.av = false
        | _, _ => False) ∧
    ∀ t, step s = .next t → t.engine.err = true →
      ∃ x, t = State.faultedBy { s with cmd := cmd, wdata := wdata, pending := rest } x

/-- R207: while ERR = 1 no command changes any state: every command other than RDCSR 0..3, and every
word that would be Illegal, is dropped (FAULT and zeros, nothing executed, nothing recorded), and
RDCSR 0..3 answers normally with OK. -/
def Obligations.FaultedBlockDropsCommands : Prop :=
  ∀ s : State, s.engine.err = true →
    (∀ i : Instr, (∀ n, n ≤ 3 → i ≠ .rdcsr n) → exec i s = .next s.dropped) ∧
    (∀ (cmd : Word32) (wdata : BusWord s.cfg) (rest : List (HostEvent s.cfg)),
      s.pending = .command cmd wdata :: rest → (∀ i, decode cmd ≠ .ok i) →
        step s =
          .next (State.dropped { s with cmd := cmd, wdata := wdata, pending := rest })) ∧
    ∀ n r, csrOf n = some r →
      exec (.rdcsr n) s = .next (s.completed s.engine (csrValue r s.engine))

/-- R208: while ERR = 1 no step but reset changes any state of the block (no command clears ERR,
NEWB neither); reset clears it and invalidates the grid.  That the idle step, which the first clause
takes in, changes nothing is the model's reading (notes/assumptions/2.md, DEDUCED), and the port's
cmd = 0, wdata = 0 and no response after reset are its choice (notes/assumptions/3.md, DESIGN
CHOICE). -/
def Obligations.OnlyResetLeavesFaultedState : Prop :=
  ∀ s : State, s.engine.err = true →
    ((∀ rest, s.pending ≠ .reset :: rest) →
      ∃ cmd wdata response pending, step s =
        .next { s with cmd := cmd, wdata := wdata, response := response, pending := pending }) ∧
    ∀ rest, s.pending = .reset :: rest →
      step s = .next { State.resetOf s.cfg with pending := rest } ∧
      (Engine.reset s.cfg).err = false ∧ ∀ g, memRead (Engine.reset s.cfg) g = none

/-! ### The port, the flags and the words -/

/-- R101: `resp` is FAULT exactly when the command raised a fault or a faulted block dropped it;
`rdata` is zero on FAULT, and for every command but RD and RDCSR. -/
def Obligations.ResponseTellsCompletion : Prop :=
  ∀ (i : Instr) (s t : State), exec i s = .next t →
    ∃ r, t.response = some r ∧
      (r.resp = .fault ↔
        t.engine.err = true ∧ ∀ n, n ≤ 3 → i ≠ .rdcsr n) ∧
      (r.resp = .fault → r.rdata = 0) ∧
      ((∀ a, i ≠ .rd a) → (∀ n, i ≠ .rdcsr n) → r.rdata = 0)

/-- R102: every command but WR gives the same block and the same response whatever stands on
`wdata`. -/
def Obligations.WdataIsUsedByWrOnly : Prop :=
  ∀ (i : Instr) (s : State), (∀ a, i ≠ .wr a) →
    ∃ (e : Engine s.cfg) (r : Response s.cfg), ∀ d : BusWord s.cfg,
      exec i { s with wdata := d } =
        .next { s with wdata := d, engine := e, response := some r }

/-- R79: RD and RDCSR that complete change no state, and repeating one returns the same data; one
that faults in a block that is not faulted does the fault entry and nothing else. -/
def Obligations.ReadsAreIdempotent : Prop :=
  ∀ (i : Instr) (s t : State), ((∃ a, i = .rd a) ∨ ∃ n, i = .rdcsr n) → exec i s = .next t →
    ((∃ r, t.response = some r ∧ r.resp = .ok) →
      exec i t = .next t ∧ ∃ r, t = { s with response := some r }) ∧
    ((∃ r, t.response = some r ∧ r.resp = .fault) → s.engine.err = false →
      ∃ x, t = s.faultedBy x)

/-- R41: what sets and clears the valid bits, exhaustively, for a command that leaves no fault. -/
def Obligations.ValidBitsChangeAsListed : Prop :=
  ∀ (i : Instr) (s t : State), exec i s = .next t → t.engine.err = false →
    (t.engine.av =
      match i with
      | .init => true
      | .wr _ => false
      | .newb => false
      | _ => s.engine.av) ∧
    ∀ k : Fin 81,
      t.engine.cv k =
        match i with
        | .newb => false
        | .wr a => s.engine.cv k || decide (a = k.val)
        | _ => s.engine.cv k

/-- R14: row, column and box of a cell, and every unit holds exactly nine cells. -/
def Obligations.CellGeometry : Prop :=
  (∀ i : Fin 81, (rowOf i).val = i.val / 9 ∧ (colOf i).val = i.val % 9 ∧
    (boxOf i).val = (i.val / 9) / 3 * 3 + (i.val % 9) / 3) ∧
  (∀ (i : Fin 81) (u : GridUnit), u.has i ↔
    u = ⟨.row, rowOf i⟩ ∨ u = ⟨.col, colOf i⟩ ∨ u = ⟨.box, boxOf i⟩) ∧
  ∀ u : GridUnit, ((List.finRange 81).filter fun i => decide (u.has i)).length = 9

/-- R70, R71: bit `STRIDE*j + k` of a packed word is bit k of the mask of lane j, and every bit
outside the nine-bit fields is 0. -/
def Obligations.PackingPlacesLanes : Prop :=
  ∀ (c : Cfg) (m : Fin c.lanes → Mask),
    (∀ (j : Fin c.lanes) (k : Fin 9),
      (packLanes m).getLsbD (c.stride * j.val + k.val) = (m j).getLsbD k.val) ∧
    ∀ b, (∀ (j : Fin c.lanes) (k : Fin 9), b ≠ c.stride * j.val + k.val) →
      (packLanes m).getLsbD b = false

/-- R12, R153: the word `ONES` of each configuration. -/
def Obligations.OnesWordValue : Prop :=
  onesWord .l7 = 0x7FFFFFFFFFFFFFFF#63 ∧
  onesWord .l16 = 0x01FF01FF01FF01FF01FF01FF01FF01FF01FF01FF01FF01FF01FF01FF01FF01FF#256

/-- R134: what the data check of WR says: every bit of the bus outside the nine-bit lane fields is
0, and every lane is 0 or has exactly one bit; and a WR to a cell whose data fails it raises
BAD_DATA. -/
def Obligations.WellFormedDataMeaning : Prop :=
  (∀ (c : Cfg) (d : BusWord c),
    wellFormedData d = true ↔
      (∀ b, (∀ (j : Fin c.lanes) (k : Fin 9), b ≠ c.stride * j.val + k.val) →
        d.getLsbD b = false) ∧
      ∀ j : Fin c.lanes,
        d.extractLsb' (c.stride * j.val) 9 = 0#9 ∨
          ∃ k : Fin 9, d.extractLsb' (c.stride * j.val) 9 = 1#9 <<< k.val) ∧
  ∀ (s : State) (i : Fin 81), s.engine.err = false → wellFormedData s.wdata = false →
    exec (.wr i.val) s = .next (s.faultedBy .badData)

/-- R73, R134, R139: the words a host packs from boards are well formed, and lane j of one decodes
to the digit of board j. -/
def Obligations.PackedBoardsAreWellFormed : Prop :=
  ∀ (c : Cfg) (boards : Fin c.lanes → Fin 81 → Fin 10) (i : Fin 81),
    wellFormedData (clueWord boards i) = true ∧
      ∀ j : Fin c.lanes, digitOfMask (lane (fromBus (clueWord boards i)) j) = some (boards j i)

/-- A case of R138, which the spec marks as derived: a command other than NEWB, PROP, RUN and a WR
to the cell leaves the cell's word and its valid bit as they were, so that RD after WR, with only
such commands between, returns the written word. -/
def Obligations.OtherCommandsKeepCell : Prop :=
  ∀ (s : State) (i : Instr) (k : Fin 81), i ≠ .newb → (∀ n, i ≠ .prop n) → (∀ r, i ≠ .run r) →
    i ≠ .wr k.val →
    ∃ (e : Engine s.cfg) (r : Response s.cfg),
      exec i s = .next { s with engine := e, response := some r } ∧ e.cells[k] = s.engine.cells[k]

/-- A case of R138, which the spec marks as derived: WR of a well-formed word and then RD of the
same cell returns the word. -/
def Obligations.WrThenRdReturnsWord : Prop :=
  ∀ (s : State) (i : Fin 81) (d wdata : BusWord s.cfg) (rest : List (HostEvent s.cfg)),
    s.engine.err = false → wellFormedData d = true →
    s.pending =
      .command (encode (.wr i.val)) d :: .command (encode (.rd i.val)) wdata :: rest →
    ∃ t, step s = .next t ∧ t.response = some { resp := .ok, rdata := 0 } ∧
      step t =
        .next { s with
          engine :=
            { s.engine with
              cells := s.engine.cells.set i (some (d.setWidth s.cfg.wordBits)), accs := none },
          cmd := encode (.rd i.val), wdata := wdata, pending := rest,
          response := some { resp := .ok, rdata := d } }

/-! ### Legal states (spec/10_state.md R33, R38, R39, R45; spec/42_propagation.md R170) -/

/-- The reset state of each configuration is legal. -/
def Obligations.ResetIsLegal : Prop :=
  (∀ c : Cfg, (State.resetOf c).engine.Legal) ∧ State.reset.engine.Legal

/-- What the spec derives in R33, R38, R39 and R170, with R202: every step keeps the legal states:
cells hold 0 or one-hot lanes, AV = 1 implies CALL, pad bits are 0, INV holds whenever AV = 1, and
the fault record fits its command word. -/
def Obligations.StepKeepsLegal : Prop :=
  ∀ s t : State, s.engine.Legal → step s = .next t → t.engine.Legal

/-- R45, its last sentence: `FCMD = 0` together with `ERR = 1` cannot occur in a legal state. -/
def Obligations.FaultRecordNamesCommand : Prop :=
  ∀ (c : Cfg) (e : Engine c), e.Legal → e.err = true → fcmdReg e ≠ 0 ∧ e.cause ≠ 0

/-- R170 (marked as derived): INV in its other form: a unit's accumulator lane is 0x1FF less every
digit its cells hold. -/
def Obligations.InvAsComplementOfUnion : Prop :=
  ∀ (c : Cfg) (g : Grid c), (∀ i : Fin 81, LegalCellWord g.cells[i]) →
    (g.Inv ↔
      ∀ (u : GridUnit) (j : Fin c.lanes),
        lane (g.accs.get u) j =
          0x1FF#9 &&& ~~~((List.finRange 81).foldl
            (fun m i => if u.has i then m ||| lane g.cells[i] j else m) 0#9))

/-! ### Laws of INIT and of elimination (spec/41_accumulator_init.md, spec/42_propagation.md) -/

/-- R151 (marked as derived): the order of the 81 inner steps of INIT does not matter. -/
def Obligations.InitOrderDoesNotMatter : Prop :=
  ∀ (c : Cfg) (cells : Vector (LaneWord c) 81) (l : List (Fin 81)), l.Perm (List.finRange 81) →
    l.foldl (clearCell cells) (fullAccs c) = initAccs cells

/-- R150, a corner case it marks as derived from R170: INIT in a legal block with AV = 1 recomputes
what the engine already holds. -/
def Obligations.InitAfterRunChangesNothing : Prop :=
  ∀ s : State, s.engine.Legal → s.engine.err = false → s.engine.av = true →
    exec .init s = .next (s.completed s.engine 0)

/-- R163: the cell step is, in every lane, `step9` of that lane's own four values, and the lanes may
be taken in any order. -/
def Obligations.LaneOrderDoesNotMatter : Prop :=
  ∀ (c : Cfg) (q : WordQuad c),
    (∀ j : Fin c.lanes, q.step.lane j = step9 (q.lane j)) ∧
    ∀ l : List (Fin c.lanes), l.Perm (List.finRange c.lanes) →
      l.foldl WordQuad.stepLane q = q.step

/-- R161 (marked as derived): the cell step in a legal grid, case by case: an unsolved lane becomes
its only candidate, an unsolved lane with another number of candidates stays, and a solved lane
stays, whose digit is no candidate. -/
def Obligations.CellStepCases : Prop :=
  ∀ (c : Cfg) (g : Grid c) (i : Fin 81) (j : Fin c.lanes), g.Legal →
    let cand := lane g.accs.row[rowOf i] j &&& lane g.accs.col[colOf i] j &&&
      lane g.accs.box[boxOf i] j
    (lane g.cells[i] j = 0#9 → onehot9 cand = true →
      lane (cellStep g i).cells[i] j = cand ∧
      ∀ u : GridUnit, u.has i →
        lane ((cellStep g i).accs.get u) j = lane (g.accs.get u) j &&& ~~~cand) ∧
    (lane g.cells[i] j = 0#9 → onehot9 cand = false → g.SameLane j (cellStep g i)) ∧
    (g.Solved i j → cand &&& lane g.cells[i] j = 0#9 ∧ g.SameLane j (cellStep g i))

/-- R171 (marked as derived): along any sequence of cell steps a solved lane keeps its digit, an
unsolved lane stays 0 or becomes one-hot, and an accumulator only loses bits. -/
def Obligations.EliminationIsMonotone : Prop :=
  ∀ (c : Cfg) (g : Grid c) (l : List (Fin 81)), g.Legal →
    (∀ (i : Fin 81) (j : Fin c.lanes),
      (g.Solved i j → lane (stepCells l g).cells[i] j = lane g.cells[i] j) ∧
      (lane g.cells[i] j = 0#9 →
        lane (stepCells l g).cells[i] j = 0#9 ∨ (stepCells l g).Solved i j)) ∧
    ∀ u : GridUnit, (stepCells l g).accs.get u &&& ~~~(g.accs.get u) = 0

/-- R172 (marked as derived): a cell step on a cell solved in every lane changes nothing, and rounds
over a grid that is solved in every lane change nothing. -/
def Obligations.SolvedCellStepChangesNothing : Prop :=
  ∀ (c : Cfg) (g : Grid c), g.Legal →
    (∀ i : Fin 81, (∀ j, g.Solved i j) → cellStep g i = g) ∧
    ((∀ i j, g.Solved i j) → ∀ r, rounds r g = g)

/-- R173 (marked as derived): a round that changes nothing, of the grid or of one lane, is followed
by no change, whatever cells are stepped. -/
def Obligations.IdempotentPastFixpoint : Prop :=
  ∀ (c : Cfg) (g : Grid c) (l : List (Fin 81)),
    (gridRound g = g → stepCells l g = g) ∧
    ∀ j : Fin c.lanes, g.SameLane j (gridRound g) → g.SameLane j (stepCells l g)

/-- R174 (marked as derived): a lane with m unsolved cells is at its fixpoint after m rounds, so
`RUN 81` reaches the fixpoint of every lane. -/
def Obligations.RoundsConverge : Prop :=
  ∀ (c : Cfg) (g : Grid c), g.Legal →
    (∀ (j : Fin c.lanes) (n : Nat),
      ((List.finRange 81).filter fun i => decide (lane g.cells[i] j = 0#9)).length ≤ n →
        (rounds n g).LaneAtRest j) ∧
    ∀ n, 81 ≤ n → rounds n g = rounds 81 g

/-- R175 (marked as derived): if the solved cells of a lane agree with a valid Sudoku, they do after
any cell steps. -/
def Obligations.CommitsAreSound : Prop :=
  ∀ (c : Cfg) (g : Grid c) (j : Fin c.lanes) (sol : Fin 81 → Fin 9) (l : List (Fin 81)),
    g.Legal → ValidSudoku sol → g.Agrees j sol → (stepCells l g).Agrees j sol

/-- R176 (marked as derived): for a lane whose clues extend to a valid Sudoku, two orders of cell
steps that both come to rest in the lane come to rest in the same lane. -/
def Obligations.FixpointIsOrderIndependent : Prop :=
  ∀ (c : Cfg) (g : Grid c) (j : Fin c.lanes) (sol : Fin 81 → Fin 9) (l l' : List (Fin 81)),
    g.Legal → ValidSudoku sol → g.Agrees j sol →
    (stepCells l g).LaneAtRest j → (stepCells l' g).LaneAtRest j →
      (stepCells l g).SameLane j (stepCells l' g)

/-- R177 (marked as derived): if no unit of a lane holds a digit in two cells, none does after any
cell steps. -/
def Obligations.NoDuplicateIsCreated : Prop :=
  ∀ (c : Cfg) (g : Grid c) (j : Fin c.lanes) (l : List (Fin 81)),
    g.Legal → g.NoDuplicate j → (stepCells l g).NoDuplicate j

/-- R177 and R178 (marked as derived): in a lane without duplicates, `LDONE[j] = 1` implies a valid
solved Sudoku. -/
def Obligations.DoneLaneIsValidSudoku : Prop :=
  ∀ (c : Cfg) (e : Engine c) (g : Grid c) (j : Fin c.lanes), e.grid = some g →
    g.NoDuplicate j → (ldoneReg e).getLsbD j.val = true →
      ∃ sol : Fin 81 → Fin 9, ValidSudoku sol ∧
        ∀ i : Fin 81, lane g.cells[i] j = 1#9 <<< (sol i).val

/-- R179: a contradiction is silent: an unsolved cell with no candidate left stays 0 for ever, and
RUN over it completes without a fault. -/
def Obligations.ContradictionIsSilent : Prop :=
  ∀ (s : State) (g : Grid s.cfg) (i : Fin 81) (j : Fin s.cfg.lanes), s.engine.err = false →
    s.engine.grid = some g → lane g.cells[i] j = 0#9 →
    lane g.accs.row[rowOf i] j &&& lane g.accs.col[colOf i] j &&& lane g.accs.box[boxOf i] j =
      0#9 →
    (∀ l, lane (stepCells l g).cells[i] j = 0#9) ∧
    ∀ r, ∃ e : Engine s.cfg, exec (.run r) s = .next (s.completed e 0) ∧ e.err = false ∧
      (ldoneReg e).getLsbD j.val = false

/-- R165, a corner case it marks as derived: `RUN a` then `RUN b` is `RUN (a + b)`.  The two sides
are compared at one and the same port word `cmd`; with AV = 0 they fault, and where the block takes
each command with its own word the fault records differ in FCMD (R206), so there the equality is one
of the meanings at a given `cmd` alone.  ARG bounds a + b by 255; above it the clause rests on the
model's meanings for larger operands (notes/assumptions/9.md, DESIGN CHOICE). -/
def Obligations.RunsCompose : Prop :=
  ∀ (a b : Nat) (s t : State), exec (.run a) s = .next t → exec (.run b) t = exec (.run (a + b)) s

/-- R83: no command moves information between lanes: blocks that are the same in lane j, given the
same command with data that is the same in lane j and passes or fails the whole-word check alike,
stay the same in lane j, and return the same `resp`, the same lane j of a read word and the same bit
j of LDONE. -/
def Obligations.LanesAreIsolated : Prop :=
  ∀ (c : Cfg) (j : Fin c.lanes) (e e' : Engine c) (cmd : Word32) (d d' : BusWord c)
    (x : Option (Response c)) (p : List (HostEvent c)) (i : Instr),
    e.SameLane j e' → wellFormedData d = wellFormedData d' →
    lane (fromBus d) j = lane (fromBus d') j →
    ∃ (f f' : Engine c) (r r' : Response c),
      exec i ⟨c, e, cmd, d, x, p⟩ = .next ⟨c, f, cmd, d, some r, p⟩ ∧
      exec i ⟨c, e', cmd, d', x, p⟩ = .next ⟨c, f', cmd, d', some r', p⟩ ∧
      f.SameLane j f' ∧ r.resp = r'.resp ∧
      ((∃ a, i = .rd a) → lane (fromBus r.rdata) j = lane (fromBus r'.rdata) j) ∧
      (i = .rdcsr 3 → r.rdata.getLsbD j.val = r'.rdata.getLsbD j.val)

/-! ### Pseudo-instructions (spec/30_encoding.md R109) -/

/-- R109: the expansions of the pseudo-instructions.  That `plain` presents `wdata = 0` beside a
command other than WR is the model's choice and not R109's (notes/assumptions/11.md, DESIGN CHOICE).
-/
def Obligations.PseudoInstructionsExpand : Prop :=
  ∀ c : Cfg,
    (Pseudo.round (c := c)).expand = [plain (.run 1)] ∧
    (∀ r, (Pseudo.solve (c := c) r).expand = [plain .init, plain (.run r)]) ∧
    (∀ u, (Pseudo.rdrow (c := c) u).expand = [plain (.rd (81 + u.val))]) ∧
    (∀ u, (Pseudo.rdcol (c := c) u).expand = [plain (.rd (90 + u.val))]) ∧
    (∀ u, (Pseudo.rdbox (c := c) u).expand = [plain (.rd (99 + u.val))]) ∧
    (Pseudo.rdstat (c := c)).expand = [plain (.rdcsr 1)] ∧
    (Pseudo.rddone (c := c)).expand = [plain (.rdcsr 3)] ∧
    ∀ ws : Vector (BusWord c) 81,
      (Pseudo.loadg ws).expand.length = 81 ∧
      ∀ i : Fin 81, (Pseudo.loadg ws).expand[i.val]? = some { instr := .wr i.val, wdata := ws[i] }

/-- R109, LOADG: the 81 writes, presented to a block that is not faulted, leave every cell holding
its word and the accumulators invalid. -/
def Obligations.LoadgWritesEveryCell : Prop :=
  ∀ (s : State) (ws : Vector (BusWord s.cfg) 81), s.engine.err = false →
    (∀ i : Fin 81, wellFormedData ws[i] = true) →
    Host.Core.run Sys2Proof.core 81 (s.withCommands (Pseudo.loadg ws).expand) =
      .next
        { s with
          engine :=
            { s.engine with
              cells := ws.map fun w => some (w.setWidth s.cfg.wordBits), accs := none },
          cmd := 0x02000050#32, wdata := ws[80],
          response := some { resp := .ok, rdata := 0 }, pending := [] }

/-- R109, SOLVE r: INIT and RUN r, presented to a block whose cells are valid, leave r rounds from
the accumulators of the cells.  The `wdata = 0` presented beside INIT and RUN is the model's choice
(notes/assumptions/11.md, DESIGN CHOICE). -/
def Obligations.SolveIsInitThenRun : Prop :=
  ∀ (s : State) (ws : Vector (LaneWord s.cfg) 81) (r : Nat), r < 256 → s.engine.err = false →
    s.engine.words = some ws →
    Host.Core.run Sys2Proof.core 2 (s.withCommands (Pseudo.solve r).expand) =
      .next
        { s with
          engine := s.engine.withGrid (rounds r { cells := ws, accs := initAccs ws }),
          cmd := 0x06000000#32 + BitVec.ofNat 32 r, wdata := 0,
          response := some { resp := .ok, rdata := 0 }, pending := [] }

/-! ### The batch run (spec/70_reset_and_hazards.md) -/

/-- R234: a batch run has ended well exactly when STATUS.ERR = 0 after its last command, and exactly
when every one of its commands has returned OK.  The form of a batch run is R232's; what R232 and
R237 leave open of it is settled in notes/assumptions/10.md, and the `wdata = 0` beside its commands
other than WR in notes/assumptions/11.md (both DESIGN CHOICE). -/
def Obligations.BatchEndsWellExactlyWithoutFault : Prop :=
  ∀ (s : State) (b : Batch s.cfg), b.Valid →
    ∃ t, Host.Core.run Sys2Proof.core b.commands.length (s.withCommands b.commands) = .next t ∧
      t.pending = [] ∧
      (s.EndedWell b t ↔ (statusReg t.engine).getLsbD 0 = false) ∧
      (s.EndedWell b t ↔ s.EveryCommandOk b.commands)

/-- R232, R236 (its last sentence, for a batch run): on a block that is not faulted, a batch run
with well-formed words ends well, whatever the order of its writes and reads; RDCSR 3 returns LDONE
of the grid after r rounds from the loaded cells, and each RD returns its word of that grid.  The
form of a batch run is the model's reading of R232 and R237 (notes/assumptions/10.md), and the
`wdata = 0` beside its commands other than WR is the model's choice (notes/assumptions/11.md). -/
def Obligations.BatchRunEndsWell : Prop :=
  ∀ (s : State) (b : Batch s.cfg), b.Valid → s.engine.err = false →
    (∀ i : Fin 81, wellFormedData b.words[i] = true) →
    let ws : Vector (LaneWord s.cfg) 81 := b.words.map fun w => w.setWidth s.cfg.wordBits
    let e : Engine s.cfg :=
      s.engine.withGrid (rounds b.rounds { cells := ws, accs := initAccs ws })
    let after (cmd : Word32) (d : BusWord s.cfg) (rest : List (HostCommand s.cfg)) : State :=
      { s with
        engine := e, cmd := cmd, wdata := 0, response := some { resp := .ok, rdata := d },
        pending := rest.map HostCommand.event }
    Host.Core.run Sys2Proof.core b.commandsToDone.length (s.withCommands b.commands) =
        .next (after (encode (.rdcsr 3)) ((ldoneReg e).setWidth s.cfg.busBits) (readWords b.reads)) ∧
      (∀ (k : Nat) (a : Fin 108), b.reads[k]? = some a →
        ∃ (g : GridWord) (w : LaneWord s.cfg), gridWord a.val = some g ∧ memRead e g = some w ∧
          Host.Core.run Sys2Proof.core (b.commandsToDone.length + (k + 1))
              (s.withCommands b.commands) =
            .next (after (encode (.rd a.val)) (w.setWidth s.cfg.busBits)
              (readWords (b.reads.drop (k + 1))))) ∧
      ∃ t, s.EndedWell b t
end

