-- ==== Sys2Proof/Laws/Decode.lean ====
section
/-!
SUPPORT. The fields of an encoded command and the cases of the decoder
(spec/30_encoding.md rules R103 to R106).
-/

namespace Sys2Proof

theorem opcField_append (o : BitVec 8) (m : BitVec 16) (a : BitVec 8) :
    opcField (o ++ m ++ a) = o := by
  apply BitVec.eq_of_getLsbD_eq
  intro k hk
  have h1 : ¬ 24 + k < 8 := by omega
  have h2 : ¬ 24 + k - 8 < 16 := by omega
  have h3 : 24 + k - 8 - 16 = k := by omega
  simp only [opcField, BitVec.getLsbD_extractLsb', BitVec.getLsbD_append, hk, h1, h2, h3,
    decide_true, Bool.true_and]
  simp

theorem mbzField_append (o : BitVec 8) (m : BitVec 16) (a : BitVec 8) :
    mbzField (o ++ m ++ a) = m := by
  apply BitVec.eq_of_getLsbD_eq
  intro k hk
  have h1 : ¬ 8 + k < 8 := by omega
  have h2 : 8 + k - 8 = k := by omega
  simp only [mbzField, BitVec.getLsbD_extractLsb', BitVec.getLsbD_append, hk, h1, h2]
  simp

theorem argField_append (o : BitVec 8) (m : BitVec 16) (a : BitVec 8) :
    argField (o ++ m ++ a) = a := by
  apply BitVec.eq_of_getLsbD_eq
  intro k hk
  simp only [argField, BitVec.getLsbD_extractLsb', BitVec.getLsbD_append, hk]
  simp [hk]

/-- A command word is its three fields (R103). -/
theorem word_of_fields (w : Word32) : opcField w ++ mbzField w ++ argField w = w := by
  apply BitVec.eq_of_getLsbD_eq
  intro k hk
  simp only [opcField, mbzField, argField, BitVec.getLsbD_extractLsb', BitVec.getLsbD_append]
  by_cases h1 : k < 8
  · simp [h1]
  · by_cases h2 : k - 8 < 16
    · have h3 : 8 + (k - 8) = k := by omega
      simp [h1, h2, h3]
    · have h3 : 24 + (k - 8 - 16) = k := by omega
      have h4 : k - 8 - 16 < 8 := by omega
      simp [h1, h2, h3, h4]

theorem opcField_encode (i : Instr) : opcField (encode i) = opcOf i := opcField_append ..

theorem mbzField_encode (i : Instr) : mbzField (encode i) = 0#16 := mbzField_append ..

theorem argField_encode (i : Instr) : argField (encode i) = BitVec.ofNat 8 (argOf i) :=
  argField_append ..

theorem withoutArg_eq_ok_iff {arg : Nat} {i j : Instr} :
    withoutArg arg i = .ok j ↔ arg = 0 ∧ i = j := by
  unfold withoutArg
  split_ifs with h <;> simp [h]

/-- Everything the decoder can accept: a zero MBZ field and one of the eight opcodes (R105, R106). -/
theorem decode_eq_ok_cases {w : Word32} {i : Instr} (h : decode w = .ok i) :
    mbzField w = 0#16 ∧ opcField w = opcOf i ∧ (argField w).toNat = argOf i := by
  unfold decode at h
  split_ifs at h with hm
  refine ⟨by simpa using hm, ?_⟩
  unfold decodeOpc at h
  have hopc : ∀ n : Nat, n < 256 → (opcField w).toNat = n → opcField w = BitVec.ofNat 8 n :=
    fun n hn e => BitVec.eq_of_toNat_eq (by simpa [Nat.mod_eq_of_lt hn] using e)
  split at h <;> rename_i heq <;>
    first
      | (obtain ⟨ha, rfl⟩ := withoutArg_eq_ok_iff.mp h
         exact ⟨hopc _ (by decide) heq, ha⟩)
      | (cases h
         exact ⟨hopc _ (by decide) heq, rfl⟩)
      | cases h

end Sys2Proof
end

