-- ==== Sys2Proof/Laws/State.lean ====
section
/-!
SUPPORT. One lemma per field per update of the state: what each shared update leaves in each field.
-/

namespace Sys2Proof.Machine

variable {c : Cfg}

/-! ### The machine -/

section accept
variable (s : State) (cmd : Word32) (wdata : BusWord s.cfg) (rest : List (HostEvent s.cfg))
@[simp] theorem accept_cfg : (s.accept cmd wdata rest).cfg = s.cfg := rfl
@[simp] theorem accept_engine : (s.accept cmd wdata rest).engine = s.engine := rfl
@[simp] theorem accept_cmd : (s.accept cmd wdata rest).cmd = cmd := rfl
@[simp] theorem accept_wdata : (s.accept cmd wdata rest).wdata = wdata := rfl
@[simp] theorem accept_response : (s.accept cmd wdata rest).response = s.response := rfl
@[simp] theorem accept_pending : (s.accept cmd wdata rest).pending = rest := rfl
end accept

section answer
variable (s : State) (r : Reply s.cfg)
@[simp] theorem answer_cfg : (s.answer r).cfg = s.cfg := rfl
@[simp] theorem answer_engine : (s.answer r).engine = r.engine := rfl
@[simp] theorem answer_cmd : (s.answer r).cmd = s.cmd := rfl
@[simp] theorem answer_wdata : (s.answer r).wdata = s.wdata := rfl
@[simp] theorem answer_response : (s.answer r).response = some r.response := rfl
@[simp] theorem answer_pending : (s.answer r).pending = s.pending := rfl
end answer

section present
variable (s : State) (cmd : Word32) (wdata : BusWord s.cfg)
@[simp] theorem present_cfg : (s.present cmd wdata).cfg = s.cfg := rfl
@[simp] theorem present_engine : (s.present cmd wdata).engine = s.engine := rfl
@[simp] theorem present_cmd : (s.present cmd wdata).cmd = s.cmd := rfl
@[simp] theorem present_wdata : (s.present cmd wdata).wdata = s.wdata := rfl
@[simp] theorem present_response : (s.present cmd wdata).response = s.response := rfl
@[simp] theorem present_pending :
    (s.present cmd wdata).pending = .command cmd wdata :: s.pending := rfl
end present

section applyReset
variable (s : State) (rest : List (HostEvent s.cfg))
@[simp] theorem applyReset_cfg : (applyReset s rest).cfg = s.cfg := rfl
@[simp] theorem applyReset_engine : (applyReset s rest).engine = Engine.reset s.cfg := rfl
@[simp] theorem applyReset_cmd : (applyReset s rest).cmd = 0 := rfl
@[simp] theorem applyReset_wdata : (applyReset s rest).wdata = 0 := rfl
@[simp] theorem applyReset_response : (applyReset s rest).response = none := rfl
@[simp] theorem applyReset_pending : (applyReset s rest).pending = rest := rfl
end applyReset

section resetOf
variable (c : Cfg)
@[simp] theorem resetOf_cfg : (State.resetOf c).cfg = c := rfl
@[simp] theorem resetOf_engine : (State.resetOf c).engine = Engine.reset c := rfl
@[simp] theorem resetOf_cmd : (State.resetOf c).cmd = 0 := rfl
@[simp] theorem resetOf_wdata : (State.resetOf c).wdata = 0 := rfl
@[simp] theorem resetOf_response : (State.resetOf c).response = none := rfl
@[simp] theorem resetOf_pending : (State.resetOf c).pending = [] := rfl
@[simp] theorem reset_getElem {i : Nat} (h : i < 81) : (Engine.reset c).cells[i] = none := by
  simp [Engine.reset]
theorem reset_cells (i : Fin 81) : (Engine.reset c).cells[i] = none := reset_getElem c i.isLt
@[simp] theorem reset_accs : (Engine.reset c).accs = none := rfl
@[simp] theorem reset_fault : (Engine.reset c).fault = none := rfl
end resetOf

/-! ### The block -/

section memWrite
variable (e : Engine c) (i : Fin 81) (w : LaneWord c)
@[simp] theorem memWrite_accs : (memWrite e i w).accs = none := rfl
@[simp] theorem memWrite_fault : (memWrite e i w).fault = e.fault := rfl
@[simp] theorem memWrite_getElem {k : Nat} (h : k < 81) :
    (memWrite e i w).cells[k] = if i.val = k then some w else e.cells[k] := by
  simp [memWrite, Vector.getElem_set]
theorem memWrite_cells_self : (memWrite e i w).cells[i] = some w := by simp
theorem memWrite_cells_ne {k : Fin 81} (h : k ≠ i) : (memWrite e i w).cells[k] = e.cells[k] := by
  have : i.val ≠ k.val := fun h' => h (Fin.ext h'.symm)
  simp [this]
end memWrite

section invalidateAll
variable (e : Engine c)
@[simp] theorem invalidateAll_getElem {i : Nat} (h : i < 81) :
    (invalidateAll e).cells[i] = none := by
  simp [invalidateAll]
theorem invalidateAll_cells (i : Fin 81) : (invalidateAll e).cells[i] = none :=
  invalidateAll_getElem e i.isLt
@[simp] theorem invalidateAll_accs : (invalidateAll e).accs = none := rfl
@[simp] theorem invalidateAll_fault : (invalidateAll e).fault = e.fault := rfl
end invalidateAll

section withGrid
variable (e : Engine c) (g : Grid c)
@[simp] theorem withGrid_getElem {i : Nat} (h : i < 81) :
    (e.withGrid g).cells[i] = some g.cells[i] := by
  simp [Engine.withGrid]
theorem withGrid_cells (i : Fin 81) : (e.withGrid g).cells[i] = some g.cells[i] :=
  withGrid_getElem e g i.isLt
@[simp] theorem withGrid_accs : (e.withGrid g).accs = some g.accs := rfl
@[simp] theorem withGrid_fault : (e.withGrid g).fault = e.fault := rfl
end withGrid

section withAccs
variable (e : Engine c) (a : Option (Accs c))
@[simp] theorem withAccs_cells : ({ e with accs := a } : Engine c).cells = e.cells := rfl
@[simp] theorem withAccs_accs : ({ e with accs := a } : Engine c).accs = a := rfl
@[simp] theorem withAccs_fault : ({ e with accs := a } : Engine c).fault = e.fault := rfl
end withAccs

/-! ### Replies -/

section replies
variable (e : Engine c) (d : BusWord c) (x : Cause) (cmd : Word32)
@[simp] theorem complete_engine : (complete e d).engine = e := rfl
@[simp] theorem complete_resp : (complete e d).response.resp = .ok := rfl
@[simp] theorem complete_rdata : (complete e d).response.rdata = d := rfl
@[simp] theorem drop_engine : (drop e).engine = e := rfl
@[simp] theorem drop_resp : (drop e).response.resp = .fault := rfl
@[simp] theorem drop_rdata : (drop e).response.rdata = 0 := rfl
@[simp] theorem raise_cells : (raise x cmd e).engine.cells = e.cells := rfl
@[simp] theorem raise_accs : (raise x cmd e).engine.accs = e.accs := rfl
@[simp] theorem raise_fault :
    (raise x cmd e).engine.fault = some { cause := x, fcmd := cmd } := rfl
@[simp] theorem raise_resp : (raise x cmd e).response.resp = .fault := rfl
@[simp] theorem raise_rdata : (raise x cmd e).response.rdata = 0 := rfl
end replies

/-! ### Extensionality -/

/-- A block is its cells, its accumulators and its fault record. -/
theorem engine_ext {e e' : Engine c} (hc : ∀ i : Fin 81, e.cells[i] = e'.cells[i])
    (ha : e.accs = e'.accs) (hf : e.fault = e'.fault) : e = e' := by
  cases e; cases e'
  simp only [Engine.mk.injEq]
  exact ⟨Vector.ext fun i h => hc ⟨i, h⟩, ha, hf⟩

end Sys2Proof.Machine
end

