-- ==== Sys2Proof/Laws/Lanes.lean ====
section
/-!
SUPPORT. The algebra of lanes: reading a lane after replacing one, pad bits, the ends of a word
(spec/00_scope.md rules R11 to R14, spec/20_memory.md rules R70 to R72).
-/

namespace Sys2Proof.Machine

variable {c : Cfg}

/-! ### Sizes -/

theorem wordBits_eq (c : Cfg) : c.wordBits = c.lanes * c.stride := by cases c <;> rfl

theorem wordBits_le_busBits (c : Cfg) : c.wordBits ≤ c.busBits := by cases c <;> decide

theorem laneBase_add_le (j : Fin c.lanes) : laneBase c j + 9 ≤ c.wordBits := by
  cases c <;> (have := j.isLt; simp only [laneBase, Cfg.stride, Cfg.wordBits, Cfg.lanes] at *; omega)

theorem laneBase_separated {j k : Fin c.lanes} (h : j ≠ k) :
    laneBase c j + 9 ≤ laneBase c k ∨ laneBase c k + 9 ≤ laneBase c j := by
  have h' : j.val ≠ k.val := fun e => h (Fin.ext e)
  cases c <;> (simp only [laneBase, Cfg.stride] at *; omega)

/-! ### Bits of the lane operations -/

theorem getLsbD_andNot {n : Nat} (a b : BitVec n) (i : Nat) :
    (andNot a b).getLsbD i = (a.getLsbD i && !b.getLsbD i) := by
  by_cases h : i < n
  · simp [andNot, h]
  · simp [andNot, BitVec.getLsbD_of_ge _ _ (Nat.le_of_not_lt h)]

@[simp] theorem andNot_zero {n : Nat} (a : BitVec n) : andNot a 0#n = a := by
  apply BitVec.eq_of_getLsbD_eq
  intro i _
  rw [getLsbD_andNot]
  simp

theorem getLsbD_lane (w : LaneWord c) (j : Fin c.lanes) (k : Nat) :
    (lane w j).getLsbD k = (decide (k < 9) && w.getLsbD (laneBase c j + k)) := by
  simp [lane]

theorem getLsbD_atLane (j : Fin c.lanes) (m : Mask) (b : Nat) :
    (atLane (c := c) j m).getLsbD b =
      (decide (laneBase c j ≤ b) && m.getLsbD (b - laneBase c j)) := by
  have hl := laneBase_add_le j
  by_cases h1 : laneBase c j ≤ b
  · by_cases h2 : b < laneBase c j + 9
    · have h3 : b < c.wordBits := by omega
      simp [atLane, h1, h3, Nat.not_lt.mpr h1]
    · have h5 : 9 ≤ b - laneBase c j := by omega
      simp [atLane, BitVec.getLsbD_of_ge m _ h5]
  · simp [atLane, h1, Nat.lt_of_not_le h1]

theorem getLsbD_allDigits (k : Nat) : (0x1FF#9).getLsbD k = decide (k < 9) := by
  by_cases h : k < 9
  · interval_cases k <;> rfl
  · simp [h, BitVec.getLsbD_of_ge _ _ (Nat.le_of_not_lt h)]

/-- Which bits `setlane` replaces (R12). -/
theorem getLsbD_setLane (w : LaneWord c) (j : Fin c.lanes) (m : Mask) (b : Nat) :
    (setLane w j m).getLsbD b =
      if laneBase c j ≤ b ∧ b < laneBase c j + 9 then m.getLsbD (b - laneBase c j)
      else w.getLsbD b := by
  have hl := laneBase_add_le j
  simp only [setLane, BitVec.getLsbD_or, getLsbD_andNot, getLsbD_atLane, getLsbD_allDigits]
  by_cases h1 : laneBase c j ≤ b
  · by_cases h2 : b < laneBase c j + 9
    · have h3 : b - laneBase c j < 9 := by omega
      simp [h1, h2, h3]
    · have h5 : 9 ≤ b - laneBase c j := by omega
      simp [h2, BitVec.getLsbD_of_ge m _ h5, Nat.not_lt.mpr h5]
  · simp [h1]

/-! ### Reading a lane -/

@[simp] theorem lane_setLane_self (w : LaneWord c) (j : Fin c.lanes) (m : Mask) :
    lane (setLane w j m) j = m := by
  apply BitVec.eq_of_getLsbD_eq
  intro k hk
  rw [getLsbD_lane, getLsbD_setLane]
  simp [hk]

theorem lane_setLane_ne (w : LaneWord c) {j k : Fin c.lanes} (m : Mask) (h : k ≠ j) :
    lane (setLane w j m) k = lane w k := by
  apply BitVec.eq_of_getLsbD_eq
  intro b hb
  have hs := laneBase_separated h
  have : ¬(laneBase c j ≤ laneBase c k + b ∧ laneBase c k + b < laneBase c j + 9) := by omega
  simp [getLsbD_lane, getLsbD_setLane, this]

theorem lane_setLane (w : LaneWord c) (j k : Fin c.lanes) (m : Mask) :
    lane (setLane w j m) k = if k = j then m else lane w k := by
  by_cases h : k = j
  · subst h; simp
  · simp [h, lane_setLane_ne w m h]

@[simp] theorem lane_zero (j : Fin c.lanes) : lane (0#c.wordBits : LaneWord c) j = 0#9 := by
  apply BitVec.eq_of_getLsbD_eq
  intro k _
  simp [getLsbD_lane]

@[simp] theorem lane_andNot (a b : LaneWord c) (j : Fin c.lanes) :
    lane (andNot a b) j = andNot (lane a j) (lane b j) := by
  apply BitVec.eq_of_getLsbD_eq
  intro k hk
  simp only [getLsbD_lane, getLsbD_andNot, hk, decide_true, Bool.true_and]

@[simp] theorem lane_or (a b : LaneWord c) (j : Fin c.lanes) :
    lane (a ||| b) j = lane a j ||| lane b j := by
  apply BitVec.eq_of_getLsbD_eq
  intro k hk
  simp only [getLsbD_lane, BitVec.getLsbD_or, hk, decide_true, Bool.true_and]

/-! ### Packing -/

theorem lane_foldl_setLane (m : Fin c.lanes → Mask) (k : Fin c.lanes) (l : List (Fin c.lanes))
    (w : LaneWord c) :
    lane (l.foldl (fun w j => setLane w j (m j)) w) k = if k ∈ l then m k else lane w k := by
  induction l generalizing w with
  | nil => simp
  | cons j l ih =>
    simp only [List.foldl_cons, ih, List.mem_cons]
    by_cases h : k ∈ l
    · simp [h]
    · by_cases hj : k = j
      · subst hj; simp [h]
      · simp [h, hj, lane_setLane_ne _ _ hj]

/-- Reading lane j of a packed word gives the j-th mask (R70, R73). -/
@[simp] theorem lane_packLanes (m : Fin c.lanes → Mask) (j : Fin c.lanes) :
    lane (packLanes m) j = m j := by
  simp [packLanes, lane_foldl_setLane]

@[simp] theorem lane_onesWord (j : Fin c.lanes) : lane (onesWord c) j = 0x1FF#9 := by
  simp [onesWord]

/-- A bit that lies in the nine-bit field of a lane (R12). -/
abbrev InLane (c : Cfg) (b : Nat) : Prop := ∃ j : Fin c.lanes, laneBase c j ≤ b ∧ b < laneBase c j + 9

theorem getLsbD_foldl_setLane_of_not_inLane (m : Fin c.lanes → Mask) (l : List (Fin c.lanes))
    (w : LaneWord c) {b : Nat} (hb : ¬ InLane c b) :
    (l.foldl (fun w j => setLane w j (m j)) w).getLsbD b = w.getLsbD b := by
  induction l generalizing w with
  | nil => rfl
  | cons j l ih =>
    have hj : ¬(laneBase c j ≤ b ∧ b < laneBase c j + 9) := fun h => hb ⟨j, h⟩
    simp only [List.foldl_cons, ih, getLsbD_setLane, if_neg hj]

theorem getLsbD_of_inLane (w : LaneWord c) {b : Nat} (j : Fin c.lanes)
    (h : laneBase c j ≤ b ∧ b < laneBase c j + 9) :
    w.getLsbD b = (lane w j).getLsbD (b - laneBase c j) := by
  have h1 : b - laneBase c j < 9 := by omega
  have h2 : laneBase c j + (b - laneBase c j) = b := by omega
  simp only [getLsbD_lane, h1, h2, decide_true, Bool.true_and]

/-- `ONES` has a 1 exactly in the lanes' fields (R12, R153). -/
theorem getLsbD_onesWord (b : Nat) : (onesWord c).getLsbD b = decide (InLane c b) := by
  by_cases hb : InLane c b
  · obtain ⟨j, hj⟩ := hb
    rw [getLsbD_of_inLane _ j hj, lane_onesWord, getLsbD_allDigits]
    have h1 : b - laneBase c j < 9 := by omega
    simp only [h1, decide_true]
    exact (decide_eq_true ⟨j, hj⟩).symm
  · rw [onesWord, packLanes, getLsbD_foldl_setLane_of_not_inLane _ _ _ hb]
    simp [hb]

/-! ### Pad bits -/

theorem getLsbD_padBits (w : LaneWord c) (b : Nat) :
    (padBits w).getLsbD b = (w.getLsbD b && !decide (InLane c b)) := by
  simp [padBits, getLsbD_andNot, getLsbD_onesWord]

@[simp] theorem padBits_setLane (w : LaneWord c) (j : Fin c.lanes) (m : Mask) :
    padBits (setLane w j m) = padBits w := by
  apply BitVec.eq_of_getLsbD_eq
  intro b _
  rw [getLsbD_padBits, getLsbD_padBits, getLsbD_setLane]
  by_cases h : laneBase c j ≤ b ∧ b < laneBase c j + 9
  · have : InLane c b := ⟨j, h⟩
    simp [this]
  · simp [h]

@[simp] theorem padBits_zero : padBits (0#c.wordBits : LaneWord c) = 0 := by
  apply BitVec.eq_of_getLsbD_eq
  intro b _
  simp [getLsbD_padBits]

@[simp] theorem padBits_onesWord : padBits (onesWord c) = 0 := by
  apply BitVec.eq_of_getLsbD_eq
  intro b _
  simp [getLsbD_padBits, getLsbD_onesWord]

theorem padBits_foldl_setLane (m : Fin c.lanes → Mask) (l : List (Fin c.lanes)) (w : LaneWord c) :
    padBits (l.foldl (fun w j => setLane w j (m j)) w) = padBits w := by
  induction l generalizing w with
  | nil => rfl
  | cons j l ih => simp [ih]

@[simp] theorem padBits_packLanes (m : Fin c.lanes → Mask) : padBits (packLanes m) = 0 := by
  simp [packLanes, padBits_foldl_setLane]

theorem padBits_andNot (a b : LaneWord c) (h : padBits a = 0) : padBits (andNot a b) = 0 := by
  apply BitVec.eq_of_getLsbD_eq
  intro i _
  have := congrArg (fun w => BitVec.getLsbD w i) h
  simp only [getLsbD_padBits, getLsbD_andNot] at *
  simp only [BitVec.ofNat_eq_ofNat, BitVec.getLsbD_zero, Bool.and_eq_false_imp] at *
  intro hi
  exact this (by simp_all)

/-- A lane-word is its lanes and its pad bits. -/
theorem laneWord_ext {a b : LaneWord c} (hl : ∀ j, lane a j = lane b j)
    (hp : padBits a = padBits b) : a = b := by
  apply BitVec.eq_of_getLsbD_eq
  intro i _
  by_cases h : InLane c i
  · obtain ⟨j, hj⟩ := h
    rw [getLsbD_of_inLane a j hj, getLsbD_of_inLane b j hj, hl]
  · have := congrArg (fun w => BitVec.getLsbD w i) hp
    simpa [getLsbD_padBits, h] using this

theorem laneWord_ext_iff {a b : LaneWord c} :
    a = b ↔ (∀ j, lane a j = lane b j) ∧ padBits a = padBits b :=
  ⟨fun h => by subst h; simp, fun h => laneWord_ext h.1 h.2⟩

@[simp] theorem setLane_lane (w : LaneWord c) (j : Fin c.lanes) : setLane w j (lane w j) = w :=
  laneWord_ext (fun k => by rw [lane_setLane]; split <;> simp_all) (by simp)

/-! ### The buses -/

@[simp] theorem fromBus_toBus (w : LaneWord c) : fromBus (toBus w) = w := by
  simp only [fromBus, toBus]
  cases c
  · simp only [Cfg.wordBits, Cfg.busBits]
    exact BitVec.setWidth_setWidth_of_le w (by decide)
  · exact (BitVec.setWidth_eq _).trans (BitVec.setWidth_eq _)

theorem getLsbD_toBus (w : LaneWord c) (b : Nat) : (toBus w).getLsbD b = w.getLsbD b := by
  have := wordBits_le_busBits c
  by_cases h : b < c.wordBits
  · have h2 : b < c.busBits := by omega
    simp [toBus, h2]
  · simp [toBus, BitVec.getLsbD_of_ge w b (Nat.le_of_not_lt h)]

theorem getLsbD_fromBus (d : BusWord c) (b : Nat) :
    (fromBus d).getLsbD b = (decide (b < c.wordBits) && d.getLsbD b) := by
  simp [fromBus]

theorem toBus_injective {a b : LaneWord c} (h : toBus a = toBus b) : a = b := by
  rw [← fromBus_toBus a, h, fromBus_toBus]

/-! ### Digit masks -/

/-- The one-hot masks are the nine masks of the digits (R11, R13). -/
theorem onehot9_iff (v : Mask) : onehot9 v = true ↔ ∃ k : Fin 9, v = 1#9 <<< k.val := by
  revert v; decide

theorem blankOrOneHot_iff (v : Mask) : blankOrOneHot v = true ↔ v = 0 ∨ onehot9 v = true := by
  simp [blankOrOneHot]

@[simp] theorem onehot9_zero : onehot9 0#9 = false := by decide

/-- Two one-hot masks with a common bit are equal. -/
theorem onehot9_eq_of_and_ne_zero {a b : Mask} (ha : onehot9 a = true) (hb : onehot9 b = true)
    (h : a &&& b ≠ 0#9) : a = b := by
  rw [onehot9_iff] at ha hb
  obtain ⟨i, rfl⟩ := ha
  obtain ⟨j, rfl⟩ := hb
  revert h; revert i j; decide

/-- A one-hot mask holds no proper part but 0. -/
theorem onehot9_sub {v x : Mask} (hv : onehot9 v = true) (hx : x &&& v = x) : x = 0#9 ∨ x = v := by
  rw [onehot9_iff] at hv
  obtain ⟨k, rfl⟩ := hv
  revert hx; revert x k; decide

/-- A host reads back the digit it packed (R13, R139). -/
theorem digitOfMask_maskOfDigit (d : Fin 10) : digitOfMask (maskOfDigit d) = some d := by
  revert d; decide

theorem blankOrOneHot_maskOfDigit (d : Fin 10) : blankOrOneHot (maskOfDigit d) = true := by
  revert d; decide

end Sys2Proof.Machine
end

