-- ==== Sys2Proof/Laws/Grid.lean ====
section
/-!
SUPPORT. The grid words: the address map, reading after writing, the valid words as a whole, and the
accumulators by unit (spec/20_memory.md rule R74, spec/10_state.md rules R34 to R38).
-/

namespace Sys2Proof.Machine

variable {c : Cfg}

/-! ### The address map -/

theorem gridWord_cell {a : Nat} (h : a ≤ 80) : gridWord a = some (.cell ⟨a, by omega⟩) := by
  simp [gridWord, h]

theorem gridWord_eq_none_iff {a : Nat} : gridWord a = none ↔ 107 < a := by
  unfold gridWord
  split_ifs <;> simp <;> omega

theorem gridWord_eq_cell_iff {a : Nat} {i : Fin 81} : gridWord a = some (.cell i) ↔ a = i.val := by
  have := i.isLt
  unfold gridWord
  split_ifs <;> simp [Fin.ext_iff] <;> omega

theorem gridWord_eq_acc {a : Nat} {u : GridUnit} (h : gridWord a = some (.acc u)) :
    81 ≤ a ∧ a ≤ 107 := by
  unfold gridWord at h
  split_ifs at h <;> simp_all <;> omega

/-- Every grid word has its address, and the map finds it there (R74, R75). -/
theorem gridWord_gridAddress (g : GridWord) : gridWord (gridAddress g) = some g := by
  cases g with
  | cell i => exact gridWord_eq_cell_iff.mpr rfl
  | acc u =>
    obtain ⟨k, n⟩ := u
    cases k <;> (revert n; decide)

theorem gridAddress_of_gridWord {a : Nat} {g : GridWord} (h : gridWord a = some g) :
    gridAddress g = a := by
  unfold gridWord at h
  split_ifs at h <;> simp only [Option.some.injEq] at h <;> subst h <;>
    (simp only [gridAddress] <;> omega)

theorem cellIndex_eq_some_iff {n : Nat} {i : Fin 81} : cellIndex n = some i ↔ n = i.val := by
  have := i.isLt
  unfold cellIndex
  split_ifs with h
  · simp [Fin.ext_iff]
  · simp only [false_iff]; omega

theorem cellIndex_eq_none_iff {n : Nat} : cellIndex n = none ↔ 80 < n := by
  unfold cellIndex
  split_ifs <;> simp <;> omega

theorem csrOf_eq_none_iff {n : Nat} : csrOf n = none ↔ 3 < n := by
  match n with
  | 0 | 1 | 2 | 3 => simp [csrOf]
  | n + 4 => simp [csrOf]

/-! ### Reading after writing -/

@[simp] theorem memRead_memWrite_self (e : Engine c) (i : Fin 81) (w : LaneWord c) :
    memRead (memWrite e i w) (.cell i) = some w := memWrite_cells_self e i w

theorem memRead_memWrite_cell_ne (e : Engine c) {i k : Fin 81} (w : LaneWord c) (h : k ≠ i) :
    memRead (memWrite e i w) (.cell k) = memRead e (.cell k) := memWrite_cells_ne e i w h

@[simp] theorem memRead_memWrite_acc (e : Engine c) (i : Fin 81) (w : LaneWord c) (u : GridUnit) :
    memRead (memWrite e i w) (.acc u) = none := rfl

@[simp] theorem memRead_invalidateAll (e : Engine c) (g : GridWord) :
    memRead (invalidateAll e) g = none := by
  cases g with
  | cell i => exact invalidateAll_cells e i
  | acc u => rfl

@[simp] theorem memRead_withGrid_cell (e : Engine c) (g : Grid c) (i : Fin 81) :
    memRead (e.withGrid g) (.cell i) = some g.cells[i] := withGrid_cells e g i

@[simp] theorem memRead_withGrid_acc (e : Engine c) (g : Grid c) (u : GridUnit) :
    memRead (e.withGrid g) (.acc u) = some (g.accs.get u) := rfl

/-! ### The 81 cells together -/

/-- The words are there exactly when every cell is valid, and then they are the cells' words. -/
theorem words_eq_some_iff {e : Engine c} {ws : Vector (LaneWord c) 81} :
    e.words = some ws ↔ ∀ i : Fin 81, e.cells[i] = some ws[i] := by
  unfold Engine.words
  split_ifs with h
  · constructor
    · intro hw i
      simp only [Option.some.injEq] at hw
      subst hw
      simp
    · intro hw
      have : Vector.ofFn (fun i : Fin 81 => (e.cells[i]).get (h i)) = ws :=
        Vector.ext fun i hi => by
          rw [Vector.getElem_ofFn]
          exact Option.get_of_eq_some _ (hw ⟨i, hi⟩)
      rw [this]
  · constructor
    · intro hw; cases hw
    · intro hw
      exact absurd (fun i => by rw [hw i]; rfl) h

theorem words_eq_none_iff {e : Engine c} : e.words = none ↔ ∃ i : Fin 81, e.cells[i] = none := by
  unfold Engine.words
  split_ifs with h
  · simp only [false_iff]
    rintro ⟨i, hi⟩
    have := h i
    rw [hi] at this
    cases this
  · simp only [true_iff]
    obtain ⟨i, hi⟩ := not_forall.mp h
    exact ⟨i, by simpa using hi⟩

/-- CALL holds exactly when every valid bit is 1 (R35). -/
theorem call_iff {e : Engine c} : e.call = true ↔ ∀ i : Fin 81, e.cv i = true := by
  unfold Engine.call Engine.words Engine.cv
  split_ifs with h
  · simpa using h
  · simpa using h

/-- The grid is there exactly when the accumulators and every cell are valid. -/
theorem grid_eq_some_iff {e : Engine c} {g : Grid c} :
    e.grid = some g ↔ e.accs = some g.accs ∧ e.words = some g.cells := by
  unfold Engine.grid
  cases e.accs <;> cases e.words <;> cases g <;> (simp; try tauto)

theorem grid_eq_none_iff {e : Engine c} : e.grid = none ↔ e.av = false ∨ e.call = false := by
  unfold Engine.grid Engine.av Engine.call
  cases e.accs <;> cases e.words <;> simp

@[simp] theorem grid_withGrid (e : Engine c) (g : Grid c) : (e.withGrid g).grid = some g :=
  grid_eq_some_iff.mpr ⟨rfl, words_eq_some_iff.mpr fun i => withGrid_cells e g i⟩

/-- Writing back the grid that was read changes nothing. -/
theorem withGrid_of_grid {e : Engine c} {g : Grid c} (h : e.grid = some g) : e.withGrid g = e := by
  obtain ⟨ha, hw⟩ := grid_eq_some_iff.mp h
  exact engine_ext (fun i => by rw [withGrid_cells, words_eq_some_iff.mp hw i]) ha.symm rfl

@[simp] theorem withGrid_withGrid (e : Engine c) (g g' : Grid c) :
    (e.withGrid g).withGrid g' = e.withGrid g' := rfl

/-! ### The accumulators by unit -/

/-- The accumulators are their 27 words. -/
theorem accs_ext {a b : Accs c} (h : ∀ u : GridUnit, a.get u = b.get u) : a = b := by
  obtain ⟨ar, ac, ab⟩ := a
  obtain ⟨br, bc, bb⟩ := b
  have hr : ar = br := Vector.ext fun i hi => h ⟨.row, ⟨i, hi⟩⟩
  have hc : ac = bc := Vector.ext fun i hi => h ⟨.col, ⟨i, hi⟩⟩
  have hb : ab = bb := Vector.ext fun i hi => h ⟨.box, ⟨i, hi⟩⟩
  rw [hr, hc, hb]

/-- A grid is its 81 cells and its 27 accumulators. -/
theorem grid_ext {g g' : Grid c} (hc : ∀ i : Fin 81, g.cells[i] = g'.cells[i])
    (ha : ∀ u : GridUnit, g.accs.get u = g'.accs.get u) : g = g' := by
  cases g; cases g'
  simp only [Grid.mk.injEq]
  exact ⟨Vector.ext fun i h => hc ⟨i, h⟩, accs_ext ha⟩

end Sys2Proof.Machine
end

