-- ==== Sys2Proof/Laws/Transactions.lean ====
section
/-!
SUPPORT. What a command transaction can do, said once for each shared operation and each command:
a proof about `exec` rewrites with `exec_eq` and then cites the cases of the command.
-/

namespace Sys2Proof.Machine

variable {c : Cfg}

/-- The transaction of a command (R16): what `exec` answers with. -/
def commandReply (i : Instr) (cmd : Word32) (wdata : BusWord c) (e : Engine c) : Reply c :=
  match i with
  | .nop => nopReply e
  | .newb => newbReply e
  | .wr a => wrReply a cmd wdata e
  | .rd a => rdReply a cmd e
  | .init => initReply cmd e
  | .prop n => propReply n cmd e
  | .run r => runReply r cmd e
  | .rdcsr n => rdcsrReply n cmd e

/-- Every command is one atomic transaction on the block (R16, R100). -/
theorem exec_eq (i : Instr) (s : State) :
    exec i s = .next (s.answer (commandReply i s.cmd s.wdata s.engine)) := by
  cases i <;> rfl

/-! ### The faulted state -/

theorem err_eq_true_iff {e : Engine c} : e.err = true ↔ ∃ f, e.fault = some f := by
  unfold Engine.err
  cases e.fault <;> simp

theorem err_eq_false_iff {e : Engine c} : e.err = false ↔ e.fault = none := by
  unfold Engine.err
  cases e.fault <;> simp

/-- A faulted block drops the command (R207). -/
theorem requireNotErr_of_err {e : Engine c} (h : e.err = true) (k : Reply c) :
    requireNotErr e k = drop e := by simp [requireNotErr, h]

/-- A block that is not faulted performs it. -/
theorem requireNotErr_of_not_err {e : Engine c} (h : e.err = false) (k : Reply c) :
    requireNotErr e k = k := by simp [requireNotErr, h]

@[simp] theorem raise_err (x : Cause) (cmd : Word32) (e : Engine c) :
    (raise x cmd e).engine.err = true := rfl

@[simp] theorem memWrite_err (e : Engine c) (i : Fin 81) (w : LaneWord c) :
    (memWrite e i w).err = e.err := rfl

@[simp] theorem invalidateAll_err (e : Engine c) : (invalidateAll e).err = e.err := rfl

@[simp] theorem withGrid_err (e : Engine c) (g : Grid c) : (e.withGrid g).err = e.err := rfl

@[simp] theorem withAccs_err (e : Engine c) (a : Option (Accs c)) :
    ({ e with accs := a } : Engine c).err = e.err := rfl

/-! ### The commands, case by case, in a block that is not faulted -/

section cases
variable {e : Engine c} (he : e.err = false)
include he

theorem wrReply_cases (a : Nat) (cmd : Word32) (w : BusWord c) :
    (107 < a ∧ wrReply a cmd w e = raise .badAddr cmd e) ∨
    (81 ≤ a ∧ a ≤ 107 ∧ wrReply a cmd w e = raise .roWrite cmd e) ∨
    (∃ i : Fin 81, a = i.val ∧ wellFormedData w = false ∧
      wrReply a cmd w e = raise .badData cmd e) ∨
    (∃ i : Fin 81, a = i.val ∧ wellFormedData w = true ∧
      wrReply a cmd w e = complete (memWrite e i (fromBus w)) 0) := by
  unfold wrReply
  rw [requireNotErr_of_not_err he]
  cases h : gridWord a with
  | none => exact .inl ⟨gridWord_eq_none_iff.mp h, rfl⟩
  | some g =>
    cases g with
    | acc u =>
      obtain ⟨h1, h2⟩ := gridWord_eq_acc h
      exact .inr (.inl ⟨h1, h2, rfl⟩)
    | cell i =>
      have ha := gridWord_eq_cell_iff.mp h
      by_cases hw : wellFormedData w = true
      · exact .inr (.inr (.inr ⟨i, ha, hw, by simp [hw]⟩))
      · exact .inr (.inr (.inl ⟨i, ha, by simpa using hw, by simp [hw]⟩))

theorem rdReply_cases (a : Nat) (cmd : Word32) :
    (107 < a ∧ rdReply a cmd e = raise .badAddr cmd e) ∨
    (∃ g, gridWord a = some g ∧ memRead e g = none ∧ rdReply a cmd e = raise .uninit cmd e) ∨
    (∃ g w, gridWord a = some g ∧ memRead e g = some w ∧
      rdReply a cmd e = complete e (toBus w)) := by
  unfold rdReply
  rw [requireNotErr_of_not_err he]
  cases h : gridWord a with
  | none => exact .inl ⟨gridWord_eq_none_iff.mp h, rfl⟩
  | some g =>
    cases hm : memRead e g with
    | none => exact .inr (.inl ⟨g, rfl, hm, by simp [hm]⟩)
    | some w => exact .inr (.inr ⟨g, w, rfl, hm, by simp [hm]⟩)

theorem initReply_cases (cmd : Word32) :
    (e.words = none ∧ initReply cmd e = raise .uninit cmd e) ∨
    (∃ ws, e.words = some ws ∧
      initReply cmd e = complete { e with accs := some (initAccs ws) } 0) := by
  unfold initReply
  rw [requireNotErr_of_not_err he]
  cases h : e.words with
  | none => exact .inl ⟨rfl, rfl⟩
  | some ws => exact .inr ⟨ws, rfl, rfl⟩

theorem propReply_cases (n : Nat) (cmd : Word32) :
    (80 < n ∧ propReply n cmd e = raise .badAddr cmd e) ∨
    (n ≤ 80 ∧ e.grid = none ∧ propReply n cmd e = raise .uninit cmd e) ∨
    (∃ (i : Fin 81) (g : Grid c), n = i.val ∧ e.grid = some g ∧
      propReply n cmd e = complete (e.withGrid (cellStep g i)) 0) := by
  unfold propReply
  rw [requireNotErr_of_not_err he]
  cases h : cellIndex n with
  | none => exact .inl ⟨cellIndex_eq_none_iff.mp h, rfl⟩
  | some i =>
    have hn := cellIndex_eq_some_iff.mp h
    have := i.isLt
    cases hg : e.grid with
    | none => exact .inr (.inl ⟨by omega, rfl, rfl⟩)
    | some g => exact .inr (.inr ⟨i, g, hn, rfl, rfl⟩)

theorem runReply_cases (r : Nat) (cmd : Word32) :
    (e.grid = none ∧ runReply r cmd e = raise .uninit cmd e) ∨
    (∃ g : Grid c, e.grid = some g ∧
      runReply r cmd e = complete (e.withGrid (rounds r g)) 0) := by
  unfold runReply
  rw [requireNotErr_of_not_err he]
  cases hg : e.grid with
  | none => exact .inl ⟨rfl, rfl⟩
  | some g => exact .inr ⟨g, rfl, rfl⟩

theorem nopReply_eq : nopReply e = complete e 0 := requireNotErr_of_not_err he _

theorem newbReply_eq : newbReply e = complete (invalidateAll e) 0 := requireNotErr_of_not_err he _

theorem illegalReply_eq (cmd : Word32) : illegalReply cmd e = raise .illegal cmd e :=
  requireNotErr_of_not_err he _

end cases

/-- RDCSR answers or raises BAD_ADDR, whatever else (R191). -/
theorem rdcsrReply_cases (n : Nat) (cmd : Word32) (e : Engine c) :
    (∃ r, csrOf n = some r ∧ rdcsrReply n cmd e = complete e (csrValue r e)) ∨
    (3 < n ∧ rdcsrReply n cmd e = requireNotErr e (raise .badAddr cmd e)) := by
  unfold rdcsrReply
  cases h : csrOf n with
  | none => exact .inr ⟨csrOf_eq_none_iff.mp h, rfl⟩
  | some r => exact .inl ⟨r, rfl, rfl⟩

/-- **Everything a command can do**: it is dropped by a faulted block, or it reads a status register,
or it raises a fault, or it completes (R100, R191, R201, R207). -/
theorem commandReply_cases (i : Instr) (cmd : Word32) (w : BusWord c) (e : Engine c) :
    (e.err = true ∧ (∀ n, n ≤ 3 → i ≠ .rdcsr n) ∧ commandReply i cmd w e = drop e) ∨
    (∃ n r, i = .rdcsr n ∧ n ≤ 3 ∧ csrOf n = some r ∧
      commandReply i cmd w e = complete e (csrValue r e)) ∨
    (e.err = false ∧ (∀ n, n ≤ 3 → i ≠ .rdcsr n) ∧
      ∃ x, commandReply i cmd w e = raise x cmd e) ∨
    (e.err = false ∧ (∀ n, i ≠ .rdcsr n) ∧
      ∃ e' d, commandReply i cmd w e = complete e' d ∧ e'.err = false ∧
        ((∀ a, i ≠ .rd a) → d = 0) ∧ ((∃ a, i = .rd a) → e' = e)) := by
  have csr : ∀ n, i = .rdcsr n → (3 < n → (commandReply i cmd w e = drop e ∧ e.err = true) ∨
        (e.err = false ∧ commandReply i cmd w e = raise .badAddr cmd e)) ∧
      (n ≤ 3 → ∃ r, csrOf n = some r ∧ commandReply i cmd w e = complete e (csrValue r e)) := by
    rintro n rfl
    rcases rdcsrReply_cases n cmd e with ⟨r, hr, h⟩ | ⟨hn, h⟩
    · refine ⟨fun hn => ?_, fun _ => ⟨r, hr, h⟩⟩
      rw [csrOf_eq_none_iff.mpr hn] at hr
      cases hr
    · refine ⟨fun _ => ?_, fun _ => by omega⟩
      cases he : e.err
      · exact .inr ⟨rfl, h.trans (requireNotErr_of_not_err he _)⟩
      · exact .inl ⟨h.trans (requireNotErr_of_err he _), rfl⟩
  by_cases hcsr : ∃ n, i = .rdcsr n
  · obtain ⟨n, hn⟩ := hcsr
    obtain ⟨hbig, hsmall⟩ := csr n hn
    by_cases h3 : n ≤ 3
    · obtain ⟨r, hr, h⟩ := hsmall h3
      exact .inr (.inl ⟨n, r, hn, h3, hr, h⟩)
    · have hne : ∀ m, m ≤ 3 → i ≠ .rdcsr m := fun m hm h => by
        rw [hn] at h
        injection h with h
        omega
      rcases hbig (by omega) with ⟨h, he⟩ | ⟨he, h⟩
      · exact .inl ⟨he, hne, h⟩
      · exact .inr (.inr (.inl ⟨he, hne, _, h⟩))
  · have hne : ∀ n, i ≠ .rdcsr n := fun n h => hcsr ⟨n, h⟩
    by_cases he : e.err = true
    · refine .inl ⟨he, fun n _ => hne n, ?_⟩
      cases i with
      | rdcsr n => exact absurd rfl (hne n)
      | _ => exact requireNotErr_of_err he _
    · rw [Bool.not_eq_true] at he
      refine .inr (.inr ?_)
      cases i with
      | nop => exact .inr ⟨he, hne, e, 0, nopReply_eq he, he, by simp, by simp⟩
      | newb => exact .inr ⟨he, hne, _, 0, newbReply_eq he, he, by simp, by simp⟩
      | wr a =>
        rcases wrReply_cases he a cmd w with ⟨_, h⟩ | ⟨_, _, h⟩ | ⟨_, _, _, h⟩ | ⟨_, _, _, h⟩
        · exact .inl ⟨he, fun n _ => hne n, _, h⟩
        · exact .inl ⟨he, fun n _ => hne n, _, h⟩
        · exact .inl ⟨he, fun n _ => hne n, _, h⟩
        · exact .inr ⟨he, hne, _, 0, h, he, by simp, by simp⟩
      | rd a =>
        rcases rdReply_cases he a cmd with ⟨_, h⟩ | ⟨_, _, _, h⟩ | ⟨_, _, _, _, h⟩
        · exact .inl ⟨he, fun n _ => hne n, _, h⟩
        · exact .inl ⟨he, fun n _ => hne n, _, h⟩
        · exact .inr ⟨he, hne, e, _, h, he, by simp, by simp⟩
      | init =>
        rcases initReply_cases he cmd with ⟨_, h⟩ | ⟨_, _, h⟩
        · exact .inl ⟨he, fun n _ => hne n, _, h⟩
        · exact .inr ⟨he, hne, _, 0, h, he, by simp, by simp⟩
      | prop n =>
        rcases propReply_cases he n cmd with ⟨_, h⟩ | ⟨_, _, h⟩ | ⟨_, _, _, _, h⟩
        · exact .inl ⟨he, fun n _ => hne n, _, h⟩
        · exact .inl ⟨he, fun n _ => hne n, _, h⟩
        · exact .inr ⟨he, hne, _, 0, h, he, by simp, by simp⟩
      | run r =>
        rcases runReply_cases he r cmd with ⟨_, h⟩ | ⟨_, _, h⟩
        · exact .inl ⟨he, fun n _ => hne n, _, h⟩
        · exact .inr ⟨he, hne, _, 0, h, he, by simp, by simp⟩
      | rdcsr n => exact absurd rfl (hne n)

/-! ### The steps of the machine -/

/-- A step takes the next event, or waits: everything it can do (R100, R107, R230). -/
theorem step_cases (s : State) :
    (s.pending = [] ∧ step s = .next s) ∨
    (∃ rest, s.pending = .reset :: rest ∧ step s = .next (applyReset s rest)) ∨
    (∃ cmd wdata rest i, s.pending = .command cmd wdata :: rest ∧ decode cmd = .ok i ∧
      step s = .next ((s.accept cmd wdata rest).answer
        (commandReply (c := s.cfg) i cmd wdata s.engine))) ∨
    (∃ cmd wdata rest x, s.pending = .command cmd wdata :: rest ∧ decode cmd = .error x ∧
      step s = .next ((s.accept cmd wdata rest).answer
        (illegalReply (c := s.cfg) cmd s.engine))) := by
  unfold step
  split
  next h => exact .inl ⟨h, rfl⟩
  next rest h => exact .inr (.inl ⟨rest, h, rfl⟩)
  next cmd wdata rest h =>
    cases hd : decode cmd with
    | ok i => exact .inr (.inr (.inl ⟨cmd, wdata, rest, i, h, hd, exec_eq i _⟩))
    | error x => exact .inr (.inr (.inr ⟨cmd, wdata, rest, x, h, hd, rfl⟩))

end Sys2Proof.Machine
end

