-- ==== Sys2Proof/Laws/Batch.lean ====
section
/-!
SUPPORT. Lists of commands at the port: what one more command does, said once, and the shape of a batch
run (spec/70_reset_and_hazards.md rules R232, R234).
-/

namespace Sys2Proof.Machine

variable {c : Cfg}

/-! ### Fields -/

section withCommands
variable (s : State) (l : List (HostCommand s.cfg))
@[simp] theorem withCommands_cfg : (s.withCommands l).cfg = s.cfg := rfl
@[simp] theorem withCommands_engine : (s.withCommands l).engine = s.engine := rfl
@[simp] theorem withCommands_cmd : (s.withCommands l).cmd = s.cmd := rfl
@[simp] theorem withCommands_wdata : (s.withCommands l).wdata = s.wdata := rfl
@[simp] theorem withCommands_response : (s.withCommands l).response = s.response := rfl
@[simp] theorem withCommands_pending :
    (s.withCommands l).pending = l.map HostCommand.event := rfl
end withCommands

@[simp] theorem length_writeCells (order : List (Fin 81)) (words : Vector (BusWord c) 81) :
    (writeCells order words).length = order.length := List.length_map _

@[simp] theorem length_readWords (reads : List (Fin 108)) :
    (readWords (c := c) reads).length = reads.length := List.length_map _

/-! ### One more command -/

/-- The state in which a command's transaction leaves the machine, the rest of the stream apart. -/
def State.respond (s : State) (h : HostCommand s.cfg) : State :=
  { s with
    engine := (commandReply h.instr (encode h.instr) h.wdata s.engine).engine
    cmd := encode h.instr, wdata := h.wdata
    response := some (commandReply h.instr (encode h.instr) h.wdata s.engine).response }

/-- The step on a list of commands: the first one's transaction, and the others wait. -/
theorem step_withCommands_cons (s : State) (h : HostCommand s.cfg) (l : List (HostCommand s.cfg))
    (hd : decode (encode h.instr) = .ok h.instr) :
    step (s.withCommands (h :: l)) = .next ((s.respond h).withCommands l) := by
  rcases step_cases (s.withCommands (h :: l)) with ⟨hp, _⟩ | ⟨_, hp, _⟩ |
    ⟨cmd, wdata, rest, i, hp, hi, hs⟩ | ⟨cmd, wdata, rest, x, hp, hx, _⟩
  · cases hp
  · cases hp
  · cases hp
    have := hd.symm.trans hi
    injection this with this
    subst this
    exact hs
  · cases hp
    rw [hd] at hx
    cases hx

theorem run_withCommands_cons (s : State) (h : HostCommand s.cfg) (l : List (HostCommand s.cfg))
    (hd : decode (encode h.instr) = .ok h.instr) (n : Nat) :
    Host.Core.run Sys2Proof.core (n + 1) (s.withCommands (h :: l)) =
      Host.Core.run Sys2Proof.core n ((s.respond h).withCommands l) := by
  have hs : Sys2Proof.core.step (s.withCommands (h :: l)) = _ := step_withCommands_cons s h l hd
  simp only [Host.Core.run, hs]

/-! ### Batch runs -/

/-- The choices of the ascending batch run are a batch run's, when RUN can hold the rounds. -/
theorem batch_ascending_valid (newb : Bool) (words : Vector (BusWord c) 81) {r : Nat}
    (hr : r < 256) : (Batch.ascending newb words r).Valid :=
  ⟨.refl _, hr, List.nodup_finRange _, fun a _ => List.mem_finRange a⟩

/-- Every command of a batch run has a command word. -/
theorem batch_commands_wf {b : Batch c} (hb : b.Valid) : ∀ h ∈ b.commands, h.instr.wf = true := by
  intro h hh
  simp only [Batch.commands, Batch.commandsToDone, writeCells, readWords, plain, List.mem_append,
    List.mem_map, List.mem_cons, List.not_mem_nil, or_false] at hh
  have hr := hb.rounds
  rcases hh with ((hh | ⟨i, _, rfl⟩) | rfl | rfl | rfl) | ⟨a, _, rfl⟩
  · split at hh
    · simp only [List.mem_cons, List.not_mem_nil, or_false] at hh
      subst hh
      rfl
    · cases hh
  · exact decide_eq_true (i.isLt.trans (by decide))
  · rfl
  · exact decide_eq_true hr
  · rfl
  · exact decide_eq_true (a.isLt.trans (by decide))

/-- The last command of a batch run is a read of a grid word. -/
theorem batch_last_read {b : Batch c} (hb : b.Valid) :
    ∃ (l : List (HostCommand c)) (a : Fin 108), b.commands = l ++ [plain (.rd a.val)] := by
  have hne : b.reads ≠ [] := List.ne_nil_of_mem (hb.cells 0 (by decide))
  refine ⟨b.commandsToDone ++ readWords b.reads.dropLast, b.reads.getLast hne, ?_⟩
  conv => lhs; rw [Batch.commands, ← List.dropLast_append_getLast hne]
  simp only [readWords, List.map_append, List.append_assoc, List.map_cons, List.map_nil]

end Sys2Proof.Machine
end

