-- ==== Sys2Proof/Laws/Propagation.lean ====
section
/-!
SUPPORT. What the cell step, the rounds and INIT do, said once: lane by lane
(spec/42_propagation.md rules R160 to R165, spec/41_accumulator_init.md rules R150, R151).  The lane view
`LaneGrid` is a tool of the proofs, no part of the model.
-/

namespace Sys2Proof.Machine

variable {c : Cfg}

/-! ### One lane of one cell step -/

/-- What the step commits: the one-hot value that passes the test, else nothing (R160). -/
def LaneQuad.commit (q : LaneQuad) : Mask :=
  if onehot9 (q.cand ||| q.cell) then q.cand ||| q.cell else 0#9

/-- The step of one lane, without its test: the committed bits go into the cell and out of the
accumulators. -/
theorem step9_eq (q : LaneQuad) :
    step9 q = { row := andNot q.row q.commit, col := andNot q.col q.commit,
                box := andNot q.box q.commit, cell := q.cell ||| q.commit } := by
  unfold step9 LaneQuad.commit
  split_ifs with h
  · simp only [h, if_true, LaneQuad.mk.injEq, true_and]
    rw [BitVec.or_comm q.cand, ← BitVec.or_assoc, BitVec.or_self]
  · simp [h]

theorem wordQuad_lane_setLane (q : WordQuad c) (j k : Fin c.lanes) (v : LaneQuad) :
    (q.setLane j v).lane k = if k = j then v else q.lane k := by
  unfold WordQuad.lane WordQuad.setLane
  simp only [lane_setLane]
  split_ifs <;> rfl

theorem wordQuad_lane_foldl (k : Fin c.lanes) (l : List (Fin c.lanes)) (hl : l.Nodup)
    (q : WordQuad c) :
    (l.foldl WordQuad.stepLane q).lane k = if k ∈ l then step9 (q.lane k) else q.lane k := by
  induction l generalizing q with
  | nil => simp
  | cons j l ih =>
    obtain ⟨hj, hl'⟩ := List.nodup_cons.mp hl
    rw [List.foldl_cons, ih hl']
    simp only [WordQuad.stepLane, wordQuad_lane_setLane, List.mem_cons]
    by_cases hk : k = j
    · subst hk; simp [hj]
    · simp [hk]

/-- The cell step, lane by lane: every lane is stepped once, each from its own values (R163). -/
@[simp] theorem wordQuad_lane_step (q : WordQuad c) (j : Fin c.lanes) :
    q.step.lane j = step9 (q.lane j) := by
  simp [WordQuad.step, wordQuad_lane_foldl _ _ (List.nodup_finRange _)]

/-- The cell step changes no pad bit (R162). -/
theorem wordQuad_pads_step (q : WordQuad c) :
    padBits q.step.row = padBits q.row ∧ padBits q.step.col = padBits q.col ∧
      padBits q.step.box = padBits q.box ∧ padBits q.step.cell = padBits q.cell := by
  unfold WordQuad.step
  generalize List.finRange c.lanes = l
  induction l generalizing q with
  | nil => simp
  | cons j l ih =>
    obtain ⟨h1, h2, h3, h4⟩ := ih (q.stepLane j)
    rw [List.foldl_cons, h1, h2, h3, h4]
    simp only [WordQuad.stepLane, WordQuad.setLane, padBits_setLane, and_self]

/-! ### One lane of the whole grid -/

/-- One lane of a grid: the 81 cell values and the 27 accumulator values. -/
@[ext] structure LaneGrid where
  cell : Fin 81 → Mask
  acc : GridUnit → Mask

/-- Lane j of a grid. -/
def Grid.laneGrid (g : Grid c) (j : Fin c.lanes) : LaneGrid where
  cell i := lane g.cells[i] j
  acc u := lane (g.accs.get u) j

/-- The candidates of a cell (R160). -/
def LaneGrid.cand (q : LaneGrid) (i : Fin 81) : Mask :=
  q.acc (unitOf .row i) &&& q.acc (unitOf .col i) &&& q.acc (unitOf .box i)

/-- What the step of a cell commits (R160). -/
def LaneGrid.commit (q : LaneGrid) (i : Fin 81) : Mask :=
  if onehot9 (q.cand i ||| q.cell i) then q.cand i ||| q.cell i else 0#9

/-- The cell step on one lane (R160). -/
def LaneGrid.step (q : LaneGrid) (i : Fin 81) : LaneGrid where
  cell k := if k = i then q.cell k ||| q.commit i else q.cell k
  acc u := if u.has i then andNot (q.acc u) (q.commit i) else q.acc u

theorem sameLane_iff {j : Fin c.lanes} {g g' : Grid c} :
    g.SameLane j g' ↔ g.laneGrid j = g'.laneGrid j := by
  constructor
  · rintro ⟨h1, h2⟩
    exact LaneGrid.ext (funext h1) (funext h2)
  · intro h
    exact ⟨fun i => congrFun (congrArg LaneGrid.cell h) i,
      fun u => congrFun (congrArg LaneGrid.acc h) u⟩

theorem laneQuad_eq (g : Grid c) (i : Fin 81) (j : Fin c.lanes) :
    ((g.quad i).lane j).cand = (g.laneGrid j).cand i ∧
      ((g.quad i).lane j).commit = (g.laneGrid j).commit i := ⟨rfl, rfl⟩

/-- Replacing the four words of a cell: the cell, and the accumulators of the three units that hold
it. -/
theorem setQuad_get (g : Grid c) (i : Fin 81) (q : WordQuad c) (u : GridUnit) :
    (g.setQuad i q).accs.get u =
      if u.has i then
        (match u.kind with
          | .row => q.row
          | .col => q.col
          | .box => q.box)
      else g.accs.get u := by
  obtain ⟨k, n⟩ := u
  cases k <;>
    simp only [Grid.setQuad, Accs.get, GridUnit.has, unitOf, GridUnit.mk.injEq, true_and,
      Fin.getElem_fin, Vector.getElem_set, Fin.ext_iff]

theorem setQuad_cells (g : Grid c) (i k : Fin 81) (q : WordQuad c) :
    (g.setQuad i q).cells[k] = if k = i then q.cell else g.cells[k] := by
  simp only [Grid.setQuad, Fin.getElem_fin, Vector.getElem_set, Fin.ext_iff, eq_comm]

/-- **The cell step, said once**: in every lane it is the step of that lane (R160, R163). -/
theorem laneGrid_cellStep (g : Grid c) (i : Fin 81) (j : Fin c.lanes) :
    (cellStep g i).laneGrid j = (g.laneGrid j).step i := by
  have hq := wordQuad_lane_step (g.quad i) j
  rw [step9_eq] at hq
  have hrow := congrArg LaneQuad.row hq
  have hcol := congrArg LaneQuad.col hq
  have hbox := congrArg LaneQuad.box hq
  have hcell := congrArg LaneQuad.cell hq
  simp only [WordQuad.lane] at hrow hcol hbox hcell
  apply LaneGrid.ext
  · funext k
    simp only [Grid.laneGrid, cellStep, setQuad_cells, LaneGrid.step]
    split_ifs with hk
    · subst hk; exact hcell
    · rfl
  · funext u
    simp only [Grid.laneGrid, cellStep, setQuad_get, LaneGrid.step]
    split_ifs with hu
    · obtain ⟨k, n⟩ := u
      cases k <;> (simp only [GridUnit.has, unitOf, GridUnit.mk.injEq, true_and] at hu; subst hu)
      · exact hrow
      · exact hcol
      · exact hbox
    · rfl

/-- The cell step changes no pad bit of any word (R162). -/
theorem cellStep_pads (g : Grid c) (i : Fin 81) :
    (∀ k : Fin 81, padBits (cellStep g i).cells[k] = padBits g.cells[k]) ∧
      ∀ u : GridUnit, padBits ((cellStep g i).accs.get u) = padBits (g.accs.get u) := by
  obtain ⟨h1, h2, h3, h4⟩ := wordQuad_pads_step (g.quad i)
  constructor
  · intro k
    rw [cellStep, setQuad_cells]
    split_ifs with hk
    · subst hk; exact h4
    · rfl
  · intro u
    rw [cellStep, setQuad_get]
    split_ifs with hu
    · obtain ⟨k, n⟩ := u
      cases k <;> (simp only [GridUnit.has, unitOf, GridUnit.mk.injEq, true_and] at hu; subst hu)
      · exact h1
      · exact h2
      · exact h3
    · rfl

/-- Two grids are equal when every lane and every pad bit is. -/
theorem grid_ext_lanes {g g' : Grid c} (hl : ∀ j, g.laneGrid j = g'.laneGrid j)
    (hc : ∀ k : Fin 81, padBits g.cells[k] = padBits g'.cells[k])
    (ha : ∀ u : GridUnit, padBits (g.accs.get u) = padBits (g'.accs.get u)) : g = g' :=
  grid_ext
    (fun i => laneWord_ext (fun j => congrFun (congrArg LaneGrid.cell (hl j)) i) (hc i))
    (fun u => laneWord_ext (fun j => congrFun (congrArg LaneGrid.acc (hl j)) u) (ha u))

/-! ### Sequences of cell steps -/

theorem laneGrid_stepCells (l : List (Fin 81)) (g : Grid c) (j : Fin c.lanes) :
    (stepCells l g).laneGrid j = l.foldl LaneGrid.step (g.laneGrid j) := by
  unfold stepCells
  induction l generalizing g with
  | nil => rfl
  | cons i l ih => simp only [List.foldl_cons, ih, laneGrid_cellStep]

theorem stepCells_pads (l : List (Fin 81)) (g : Grid c) :
    (∀ k : Fin 81, padBits (stepCells l g).cells[k] = padBits g.cells[k]) ∧
      ∀ u : GridUnit, padBits ((stepCells l g).accs.get u) = padBits (g.accs.get u) := by
  unfold stepCells
  induction l generalizing g with
  | nil => simp
  | cons i l ih =>
    obtain ⟨h1, h2⟩ := ih (cellStep g i)
    obtain ⟨h3, h4⟩ := cellStep_pads g i
    exact ⟨fun k => by rw [List.foldl_cons, h1, h3], fun u => by rw [List.foldl_cons, h2, h4]⟩

theorem stepCells_append (l l' : List (Fin 81)) (g : Grid c) :
    stepCells (l ++ l') g = stepCells l' (stepCells l g) := List.foldl_append

/-- A round is the cells 0, 1, …, 80 in that order (R165, R166). -/
theorem gridRound_eq (g : Grid c) : gridRound g = stepCells (List.finRange 81) g := rfl

/-- The cells that r rounds step, in order (R165). -/
def roundCells (r : Nat) : List (Fin 81) := (List.replicate r (List.finRange 81)).flatten

theorem rounds_eq_stepCells (r : Nat) (g : Grid c) : rounds r g = stepCells (roundCells r) g := by
  induction r generalizing g with
  | zero => rfl
  | succ r ih =>
    rw [rounds, ih, gridRound_eq, ← stepCells_append]
    simp [roundCells, List.replicate_succ]

theorem rounds_succ' (r : Nat) (g : Grid c) : rounds (r + 1) g = gridRound (rounds r g) := by
  induction r generalizing g with
  | zero => rfl
  | succ r ih => rw [rounds, ih, rounds]

/-! ### INIT -/

theorem clearCell_get (cells : Vector (LaneWord c) 81) (a : Accs c) (i : Fin 81) (u : GridUnit) :
    (clearCell cells a i).get u = if u.has i then andNot (a.get u) cells[i] else a.get u := by
  obtain ⟨k, n⟩ := u
  cases k <;>
    simp only [clearCell, Accs.get, GridUnit.has, unitOf, GridUnit.mk.injEq, true_and,
      Fin.getElem_fin, Vector.getElem_set, Fin.ext_iff] <;>
    (split_ifs with h <;> simp [h])

@[simp] theorem fullAccs_get (u : GridUnit) : (fullAccs c).get u = onesWord c := by
  obtain ⟨k, n⟩ := u
  cases k <;> simp [fullAccs, Accs.get]

theorem getLsbD_foldl_clearCell (cells : Vector (LaneWord c) 81) (l : List (Fin 81)) (a : Accs c)
    (u : GridUnit) (b : Nat) :
    ((l.foldl (clearCell cells) a).get u).getLsbD b =
      ((a.get u).getLsbD b && l.all fun i => !(decide (u.has i) && cells[i].getLsbD b)) := by
  induction l generalizing a with
  | nil => simp
  | cons i l ih =>
    rw [List.foldl_cons, ih, clearCell_get, List.all_cons]
    by_cases h : u.has i
    · rw [if_pos h, getLsbD_andNot, decide_eq_true h, Bool.true_and, Bool.and_assoc]
    · rw [if_neg h, decide_eq_false h, Bool.false_and, Bool.not_false, Bool.true_and]

/-- A bit of an accumulator after INIT: a lane's bit that no cell of the unit has (R150, R151). -/
theorem getLsbD_initAccs (cells : Vector (LaneWord c) 81) (u : GridUnit) (b : Nat) :
    ((initAccs cells).get u).getLsbD b = true ↔
      InLane c b ∧ ∀ i : Fin 81, u.has i → cells[i].getLsbD b = false := by
  rw [initAccs, getLsbD_foldl_clearCell, fullAccs_get, getLsbD_onesWord]
  simp only [Bool.and_eq_true, decide_eq_true_eq, List.all_eq_true, List.mem_finRange,
    true_implies, Bool.not_eq_true', Bool.and_eq_false_imp, decide_eq_true_eq]

theorem padBits_initAccs (cells : Vector (LaneWord c) 81) (u : GridUnit) :
    padBits ((initAccs cells).get u) = 0 := by
  apply BitVec.eq_of_getLsbD_eq
  intro b _
  rw [getLsbD_padBits]
  by_cases h : ((initAccs cells).get u).getLsbD b = true
  · simp [((getLsbD_initAccs cells u b).mp h).1]
  · simp [h]

end Sys2Proof.Machine
end

