-- ==== Sys2Proof/Laws/LaneGrid.lean ====
section
/-!
SUPPORT. One lane of a legal grid under one cell step: what the step can do, said once
(spec/42_propagation.md rules R160, R161, R170, R171).
-/

namespace Sys2Proof.Machine

variable {c : Cfg}

/-! ### Masks bit by bit -/

theorem mask_ext {a b : Mask} (h : ∀ k : Fin 9, a.getLsbD k.val = b.getLsbD k.val) : a = b :=
  BitVec.eq_of_getLsbD_eq fun i hi => h ⟨i, hi⟩

theorem getLsbD_digitMask (k l : Fin 9) : (1#9 <<< k.val).getLsbD l.val = decide (k = l) := by
  revert k l; decide

theorem digitMask_injective {k l : Fin 9} (h : 1#9 <<< k.val = 1#9 <<< l.val) : k = l := by
  revert k l; decide

theorem onehot9_digitMask (k : Fin 9) : onehot9 (1#9 <<< k.val) = true := by revert k; decide

theorem digitMask_ne_zero (k : Fin 9) : 1#9 <<< k.val ≠ 0#9 := by revert k; decide

theorem unitOf_has (k : UnitKind) (i : Fin 81) : (unitOf k i).has i := by cases k <;> rfl

/-! ### Legal lanes -/

/-- One lane of a legal grid (R33, R170). -/
structure LaneGrid.Legal (q : LaneGrid) : Prop where
  cells : ∀ i, q.cell i = 0#9 ∨ onehot9 (q.cell i) = true
  inv : ∀ (u : GridUnit) (k : Fin 9),
    (q.acc u).getLsbD k.val = false ↔ ∃ i, u.has i ∧ q.cell i = 1#9 <<< k.val

theorem laneGrid_legal {g : Grid c} (h : g.Legal) (j : Fin c.lanes) : (g.laneGrid j).Legal :=
  ⟨fun i => (blankOrOneHot_iff _).mp ((h.cells i).2 j), fun u k => h.inv u j k⟩

/-- A grid is legal when its lanes are and no word has a pad bit. -/
theorem grid_legal_of_lanes {g : Grid c} (hl : ∀ j, (g.laneGrid j).Legal)
    (hp : ∀ i : Fin 81, padBits g.cells[i] = 0) (ha : ∀ u, padBits (g.accs.get u) = 0) : g.Legal :=
  ⟨fun i => ⟨hp i, fun j => (blankOrOneHot_iff _).mpr ((hl j).cells i)⟩, ha,
    fun u j k => (hl j).inv u k⟩

/-- In a legal lane the candidates of a cell are the digits that no cell of its units holds. -/
theorem cand_bit_iff {q : LaneGrid} (h : q.Legal) (i : Fin 81) (k : Fin 9) :
    (q.cand i).getLsbD k.val = true ↔
      ∀ kd i', unitOf kd i' = unitOf kd i → q.cell i' ≠ 1#9 <<< k.val := by
  have hb : ∀ kd, (q.acc (unitOf kd i)).getLsbD k.val = true ↔
      ∀ i', unitOf kd i' = unitOf kd i → q.cell i' ≠ 1#9 <<< k.val := by
    intro kd
    rw [← Bool.not_eq_false, h.inv]
    have : (unitOf kd i).kind = kd := by cases kd <;> rfl
    simp only [GridUnit.has, this]
    push Not
    rfl
  simp only [LaneGrid.cand, BitVec.getLsbD_and, Bool.and_eq_true, hb]
  constructor
  · rintro ⟨⟨a, b⟩, d⟩ kd
    cases kd <;> assumption
  · intro h
    exact ⟨⟨h _, h _⟩, h _⟩

/-- The digit of a solved cell is no candidate of the cell. -/
theorem cand_bit_of_solved {q : LaneGrid} (h : q.Legal) {i : Fin 81} {k : Fin 9}
    (hs : q.cell i = 1#9 <<< k.val) : (q.cand i).getLsbD k.val = false := by
  by_contra hc
  rw [Bool.not_eq_false] at hc
  exact (cand_bit_iff h i k).mp hc .row i rfl hs

/-! ### INIT -/

/-- A lane's bit of an accumulator after INIT: a digit that no cell of the unit holds (R150). -/
theorem lane_initAccs_bit (ws : Vector (LaneWord c) 81) (u : GridUnit) (j : Fin c.lanes)
    (k : Fin 9) :
    (lane ((initAccs ws).get u) j).getLsbD k.val = true ↔
      ∀ i : Fin 81, u.has i → (lane ws[i] j).getLsbD k.val = false := by
  rw [getLsbD_lane, Bool.and_eq_true, getLsbD_initAccs]
  have hk := k.isLt
  simp only [getLsbD_lane, hk, decide_true, true_and, Bool.true_and]
  exact ⟨fun h => h.2, fun h => ⟨⟨j, by omega, by omega⟩, h⟩⟩

/-- The grid that INIT makes of legal cells is legal (R170). -/
theorem initGrid_legal {ws : Vector (LaneWord c) 81} (h : ∀ i : Fin 81, LegalCellWord ws[i]) :
    Grid.Legal { cells := ws, accs := initAccs ws } := by
  refine ⟨h, padBits_initAccs ws, fun u j k => ?_⟩
  show (lane ((initAccs ws).get u) j).getLsbD k.val = false ↔ _
  rw [← Bool.not_eq_true, lane_initAccs_bit]
  push Not
  refine exists_congr fun i => and_congr Iff.rfl ?_
  show _ ↔ lane ws[i] j = _
  rcases (blankOrOneHot_iff _).mp ((h i).2 j) with h0 | h1
  · rw [h0]
    have := digitMask_ne_zero k
    simp only [BitVec.ofNat_eq_ofNat, BitVec.getLsbD_zero, ne_eq,
      not_true_eq_false, false_iff]
    exact fun h => this h.symm
  · obtain ⟨m, hm⟩ := (onehot9_iff _).mp h1
    rw [hm, getLsbD_digitMask]
    simp only [ne_eq, decide_eq_false_iff_not, not_not]
    exact ⟨fun h => by rw [h], digitMask_injective⟩

/-- A block with a legal grid and no fault is legal. -/
theorem engine_legal_withGrid {e : Engine c} {g : Grid c} (hg : g.Legal)
    (hr : ∀ f, e.fault = some f → f.Fits) : (e.withGrid g).Legal := by
  refine ⟨fun i w h => ?_, fun _ => ?_, fun a h => ?_, fun g' h => ?_, hr⟩
  · rw [withGrid_cells] at h
    injection h with h
    subst h
    exact hg.cells i
  · rw [call_iff]
    intro i
    unfold Engine.cv
    rw [withGrid_cells]
    rfl
  · injection h with h
    subst h
    exact hg.accPads
  · rw [grid_withGrid] at h
    injection h with h
    subst h
    exact hg.inv

/-! ### The three cases of a cell step (R161) -/

/-- A solved cell commits nothing, or its own digit when it has no candidate left. -/
theorem commit_of_solved {q : LaneGrid} {i : Fin 81}
    (hs : onehot9 (q.cell i) = true) : q.commit i = 0#9 ∨ q.commit i = q.cell i := by
  unfold LaneGrid.commit
  split_ifs with ho
  · right
    obtain ⟨k, hk⟩ := (onehot9_iff _).mp hs
    obtain ⟨l, hl⟩ := (onehot9_iff _).mp ho
    have hkl := congrArg (fun m => BitVec.getLsbD m k.val) hl
    simp only [BitVec.getLsbD_or, hk, getLsbD_digitMask, decide_true, Bool.or_true,
      true_eq_decide_iff] at hkl
    rw [hl, hkl, hk]
  · left; rfl

/-- The step of a solved cell changes nothing. -/
theorem laneStep_of_solved {q : LaneGrid} (h : q.Legal) {i : Fin 81}
    (hs : onehot9 (q.cell i) = true) : q.step i = q := by
  rcases commit_of_solved hs with hc | hc
  · refine LaneGrid.ext (funext fun k => ?_) (funext fun u => ?_) <;>
      simp only [LaneGrid.step, hc, andNot_zero, BitVec.or_zero, ite_self]
  · refine LaneGrid.ext (funext fun k => ?_) (funext fun u => ?_) <;>
      simp only [LaneGrid.step, hc]
    · split_ifs with hk
      · subst hk; exact BitVec.or_self
      · rfl
    · split_ifs with hu
      · obtain ⟨k, hk⟩ := (onehot9_iff _).mp hs
        refine mask_ext fun m => ?_
        rw [getLsbD_andNot, hk, getLsbD_digitMask]
        by_cases hm : k = m
        · subst hm
          rw [(h.inv u k).mpr ⟨i, hu, hk⟩, Bool.false_and]
        · simp [hm]
      · rfl

/-- The step of an unsolved cell without exactly one candidate changes nothing. -/
theorem laneStep_of_undecided {q : LaneGrid} {i : Fin 81} (h0 : q.cell i = 0#9)
    (hc : onehot9 (q.cand i) = false) : q.step i = q := by
  have : q.commit i = 0#9 := by simp [LaneGrid.commit, h0, hc]
  refine LaneGrid.ext (funext fun k => ?_) (funext fun u => ?_) <;>
    simp only [LaneGrid.step, this, andNot_zero, BitVec.or_zero, ite_self]

/-- An unsolved cell with exactly one candidate commits it. -/
theorem commit_of_single {q : LaneGrid} {i : Fin 81} (h0 : q.cell i = 0#9)
    (hc : onehot9 (q.cand i) = true) : q.commit i = q.cand i := by
  simp [LaneGrid.commit, h0, hc]

theorem laneStep_cell_of_single {q : LaneGrid} {i : Fin 81} (h0 : q.cell i = 0#9)
    (hc : onehot9 (q.cand i) = true) (k : Fin 81) :
    (q.step i).cell k = if k = i then q.cand i else q.cell k := by
  simp only [LaneGrid.step, commit_of_single h0 hc]
  split_ifs with hk
  · subst hk; rw [h0, BitVec.zero_or]
  · rfl

theorem laneStep_acc_of_single {q : LaneGrid} {i : Fin 81} (h0 : q.cell i = 0#9)
    (hc : onehot9 (q.cand i) = true) (u : GridUnit) :
    (q.step i).acc u = if u.has i then andNot (q.acc u) (q.cand i) else q.acc u := by
  simp only [LaneGrid.step, commit_of_single h0 hc]

/-! ### A cell step only adds cell bits and only clears accumulator bits (R171) -/

/-- The second lane has come from the first: more cell bits, fewer accumulator bits. -/
def LaneGrid.Below (a b : LaneGrid) : Prop :=
  (∀ i, a.cell i &&& b.cell i = a.cell i) ∧ ∀ u, b.acc u &&& a.acc u = b.acc u

theorem laneGrid_below_refl (a : LaneGrid) : a.Below a :=
  ⟨fun _ => BitVec.and_self, fun _ => BitVec.and_self⟩

theorem mask_sub_trans {a b d : Mask} (h : a &&& b = a) (h' : b &&& d = b) : a &&& d = a := by
  rw [← h, BitVec.and_assoc, h']

theorem laneGrid_below_trans {a b d : LaneGrid} (h : a.Below b) (h' : b.Below d) : a.Below d :=
  ⟨fun i => mask_sub_trans (h.1 i) (h'.1 i), fun u => mask_sub_trans (h'.2 u) (h.2 u)⟩

theorem laneGrid_below_antisymm {a b : LaneGrid} (h : a.Below b) (h' : b.Below a) : a = b :=
  LaneGrid.ext (funext fun i => by rw [← h.1 i, BitVec.and_comm, h'.1 i])
    (funext fun u => by rw [← h'.2 u, BitVec.and_comm, h.2 u])

theorem laneStep_below (q : LaneGrid) (i : Fin 81) : q.Below (q.step i) := by
  constructor
  · intro k
    simp only [LaneGrid.step]
    split_ifs
    · refine mask_ext fun m => ?_
      rw [BitVec.getLsbD_and, BitVec.getLsbD_or]
      cases BitVec.getLsbD (q.cell k) m.val <;> rfl
    · exact BitVec.and_self
  · intro u
    simp only [LaneGrid.step]
    split_ifs
    · refine mask_ext fun m => ?_
      rw [BitVec.getLsbD_and, getLsbD_andNot]
      cases BitVec.getLsbD (q.acc u) m.val <;> simp
    · exact BitVec.and_self

theorem laneSteps_below (l : List (Fin 81)) (q : LaneGrid) : q.Below (l.foldl LaneGrid.step q) := by
  induction l generalizing q with
  | nil => exact laneGrid_below_refl q
  | cons i l ih => exact laneGrid_below_trans (laneStep_below q i) (ih _)

end Sys2Proof.Machine
end

