-- ==== Sys2Proof/Laws/PerInstr.lean ====
section
/-!
SUPPORT. The family `FieldsOfEncoding`: what stands in the three fields of an encoded command
(spec/30_encoding.md rules R103, R104), one lemma per constructor.
-/

namespace Sys2Proof.Laws

/-- The fields of the command word of a well-formed command: its opcode, zero, its operand. -/
def FieldsOfEncoding.Statement (i : Instr) : Prop :=
  i.wf = true →
    opcField (encode i) = opcOf i ∧ mbzField (encode i) = 0#16 ∧
      (argField (encode i)).toNat = argOf i

theorem fields_of_encoding {i : Instr} (h : argOf i < 256) :
    opcField (encode i) = opcOf i ∧ mbzField (encode i) = 0#16 ∧
      (argField (encode i)).toNat = argOf i :=
  ⟨opcField_encode i, mbzField_encode i, by
    rw [argField_encode]; simpa using Nat.mod_eq_of_lt h⟩

theorem FieldsOfEncoding.nop : FieldsOfEncoding.Statement .nop :=
  fun _ => fields_of_encoding (by decide)

theorem FieldsOfEncoding.newb : FieldsOfEncoding.Statement .newb :=
  fun _ => fields_of_encoding (by decide)

theorem FieldsOfEncoding.wr (a : Nat) : FieldsOfEncoding.Statement (.wr a) :=
  fun h => fields_of_encoding (of_decide_eq_true h)

theorem FieldsOfEncoding.rd (a : Nat) : FieldsOfEncoding.Statement (.rd a) :=
  fun h => fields_of_encoding (of_decide_eq_true h)

theorem FieldsOfEncoding.init : FieldsOfEncoding.Statement .init :=
  fun _ => fields_of_encoding (by decide)

theorem FieldsOfEncoding.prop (c : Nat) : FieldsOfEncoding.Statement (.prop c) :=
  fun h => fields_of_encoding (of_decide_eq_true h)

theorem FieldsOfEncoding.run (r : Nat) : FieldsOfEncoding.Statement (.run r) :=
  fun h => fields_of_encoding (of_decide_eq_true h)

theorem FieldsOfEncoding.rdcsr (n : Nat) : FieldsOfEncoding.Statement (.rdcsr n) :=
  fun h => fields_of_encoding (of_decide_eq_true h)

end Sys2Proof.Laws
end

