-- ==== Sys2Proof/Machine/Assembler.lean ====
section
/-!
DEFINITION. The assembler syntax (spec/30_encoding.md rules R108, R109), as total functions on lists of characters.
What the rule leaves open (white space, the case of hex digits, single underscores) is in
notes/assumptions/7.md.
-/

namespace Sys2Proof.Machine

variable {c : Cfg}

/-! ### Numbers -/

/-- A decimal digit. -/
def decDigit (ch : Char) : Option Nat :=
  if 48 ≤ ch.toNat ∧ ch.toNat ≤ 57 then some (ch.toNat - 48) else none

/-- A hexadecimal digit, in either case. -/
def hexDigit (ch : Char) : Option Nat :=
  if 97 ≤ ch.toNat ∧ ch.toNat ≤ 102 then some (ch.toNat - 87)
  else if 65 ≤ ch.toNat ∧ ch.toNat ≤ 70 then some (ch.toNat - 55)
  else decDigit ch

/-- The digits of a decimal natural after its value so far. -/
def decTail (acc : Nat) : List Char → Option Nat
  | [] => some acc
  | ch :: cs =>
    match decDigit ch with
    | none => none
    | some d => decTail (10 * acc + d) cs

/-- A decimal natural: one digit or more. -/
def decNat : List Char → Option Nat
  | [] => none
  | cs => decTail 0 cs

/-- The digits of a hexadecimal natural; an underscore stands between two digits (R108).  `afterDigit`
says that the last character was a digit. -/
def hexTail (acc : Nat) (afterDigit : Bool) : List Char → Option Nat
  | [] => if afterDigit then some acc else none
  | '_' :: cs => if afterDigit then hexTail acc false cs else none
  | ch :: cs =>
    match hexDigit ch with
    | none => none
    | some d => hexTail (16 * acc + d) true cs

/-- A decimal or `0x` hexadecimal natural (R108). -/
def natural : List Char → Option Nat
  | '0' :: 'x' :: cs => hexTail 0 false cs
  | cs => decNat cs

/-- A decimal index below a bound, shifted. -/
def indexed (bound base : Nat) (cs : List Char) : Option Nat :=
  match decNat cs with
  | none => none
  | some n => if n < bound then some (base + n) else none

/-- A grid address: a natural, `C<i>`, `ROW<u>`, `COL<u>` or `BOX<u>` (R108). -/
def addressOperand : List Char → Option Nat
  | 'R' :: 'O' :: 'W' :: cs => indexed 9 81 cs
  | 'C' :: 'O' :: 'L' :: cs => indexed 9 90 cs
  | 'B' :: 'O' :: 'X' :: cs => indexed 9 99 cs
  | 'C' :: cs => indexed 81 0 cs
  | cs => natural cs

/-- A CSR number: a natural or a register's name (R108). -/
def csrOperand (cs : List Char) : Option Nat :=
  if cs = ['C', 'O', 'N', 'F', 'I', 'G'] then some 0
  else if cs = ['S', 'T', 'A', 'T', 'U', 'S'] then some 1
  else if cs = ['F', 'C', 'M', 'D'] then some 2
  else if cs = ['L', 'D', 'O', 'N', 'E'] then some 3
  else natural cs

/-- A data word: a natural of BUS_BITS bits (R108). -/
def dataOperand (c : Cfg) (cs : List Char) : Option (BusWord c) :=
  match natural cs with
  | none => none
  | some n => if n < 2 ^ c.busBits then some (BitVec.ofNat _ n) else none

/-- The index of a unit, 0..8 (R109). -/
def unitOperand (cs : List Char) : Option (Fin 9) :=
  match natural cs with
  | none => none
  | some n => if h : n < 9 then some ⟨n, h⟩ else none

/-! ### Lines -/

/-- White space between the parts of a line. -/
def isBlank (ch : Char) : Bool := ch = ' ' || ch = '\t' || ch = '\r'

/-- The tokens of a line: a comma is a token of its own; `word` is the token being read, reversed. -/
def tokensFrom (word : List Char) : List Char → List (List Char)
  | [] => if word.isEmpty then [] else [word.reverse]
  | ch :: cs =>
    let done := if word.isEmpty then [] else [word.reverse]
    if isBlank ch then done ++ tokensFrom [] cs
    else if ch = ',' then done ++ [','] :: tokensFrom [] cs
    else tokensFrom (ch :: word) cs

/-- The tokens of a line, its comment left out (R108). -/
def tokens (line : List Char) : List (List Char) :=
  tokensFrom [] (line.takeWhile fun ch => decide (ch ≠ ';'))

/-- Operands separated by commas (R108, R109). -/
def operands : List (List Char) → Option (List (List Char))
  | [] => some []
  | [x] => if x = [','] then none else some [x]
  | x :: comma :: rest =>
    if x = [','] ∨ comma ≠ [','] ∨ rest = [] then none
    else
      match operands rest with
      | none => none
      | some l => some (x :: l)

/-- A command without data, if ARG can hold its operand (R103).  The `wdata = 0` presented beside it is
the model's choice (notes/assumptions/11.md). -/
def assembled (i : Instr) : Option (List (HostCommand c)) :=
  if i.wf then some [plain i] else none

/-- The mnemonics with no operand. -/
def assembleBare (m : List Char) : Option (List (HostCommand c)) :=
  if m = ['N', 'O', 'P'] then assembled .nop
  else if m = ['N', 'E', 'W', 'B'] then assembled .newb
  else if m = ['I', 'N', 'I', 'T'] then assembled .init
  else if m = ['R', 'O', 'U', 'N', 'D'] then some (Pseudo.round).expand
  else if m = ['R', 'D', 'S', 'T', 'A', 'T'] then some (Pseudo.rdstat).expand
  else if m = ['R', 'D', 'D', 'O', 'N', 'E'] then some (Pseudo.rddone).expand
  else none

/-- The mnemonics with one operand. -/
def assembleUnary (m x : List Char) : Option (List (HostCommand c)) :=
  if m = ['R', 'D'] then (addressOperand x).bind fun a => assembled (.rd a)
  else if m = ['P', 'R', 'O', 'P'] then (natural x).bind fun n => assembled (.prop n)
  else if m = ['R', 'U', 'N'] then (natural x).bind fun r => assembled (.run r)
  else if m = ['R', 'D', 'C', 'S', 'R'] then (csrOperand x).bind fun n => assembled (.rdcsr n)
  else if m = ['S', 'O', 'L', 'V', 'E'] then
    (natural x).bind fun r => if argFits r then some (Pseudo.solve r).expand else none
  else if m = ['R', 'D', 'R', 'O', 'W'] then (unitOperand x).map fun u => (Pseudo.rdrow u).expand
  else if m = ['R', 'D', 'C', 'O', 'L'] then (unitOperand x).map fun u => (Pseudo.rdcol u).expand
  else if m = ['R', 'D', 'B', 'O', 'X'] then (unitOperand x).map fun u => (Pseudo.rdbox u).expand
  else none

/-- `WR a, data`. -/
def assembleWr (x d : List Char) : Option (List (HostCommand c)) :=
  match addressOperand x, dataOperand c d with
  | some a, some w => if argFits a then some [{ instr := .wr a, wdata := w }] else none
  | _, _ => none

/-- The data words of a list of operands. -/
def dataOperands (c : Cfg) : List (List Char) → Option (List (BusWord c))
  | [] => some []
  | x :: l =>
    match dataOperand c x, dataOperands c l with
    | some w, some ws => some (w :: ws)
    | _, _ => none

/-- `LOADG w0, ..., w80`. -/
def assembleLoad (l : List (List Char)) : Option (List (HostCommand c)) :=
  match dataOperands c l with
  | none => none
  | some ws =>
    if h : ws.length = 81 then some (Pseudo.loadg ⟨ws.toArray, by simpa using h⟩).expand else none

/-- The commands of one line (R108, R109); a line with no mnemonic has none. -/
def assembleLine (c : Cfg) (line : List Char) : Option (List (HostCommand c)) :=
  match tokens line with
  | [] => some []
  | m :: rest =>
    match operands rest with
    | none => none
    | some [] => assembleBare m
    | some [x] => assembleUnary m x
    | some [x, d] => if m = ['W', 'R'] then assembleWr x d else none
    | some l => if m = ['L', 'O', 'A', 'D', 'G'] then assembleLoad l else none

/-- The commands of a text, one command per line (R108). -/
def assembleLines (c : Cfg) : List (List Char) → Option (List (HostCommand c))
  | [] => some []
  | line :: rest =>
    match assembleLine c line, assembleLines c rest with
    | some a, some b => some (a ++ b)
    | _, _ => none

/-- The lines of a text; `line` is the line being read, reversed. -/
def linesFrom (line : List Char) : List Char → List (List Char)
  | [] => [line.reverse]
  | ch :: cs => if ch = '\n' then line.reverse :: linesFrom [] cs else linesFrom (ch :: line) cs

/-- The commands of an assembler text (R108). -/
def assemble (c : Cfg) (text : List Char) : Option (List (HostCommand c)) :=
  assembleLines c (linesFrom [] text)

end Sys2Proof.Machine
end

