-- ==== Sys2Proof/Tests/Slice0.lean ====
section
/-!
SUPPORT. The model's own tests: words and vectors of spec/95_test_vectors.md on single steps, and for
each statement with hypotheses a witness that meets them.  Every expected value is the spec's.
-/

namespace Sys2Proof.Tests

open Sys2Proof Sys2Proof.Machine

/-! ### Reading an outcome -/

/-- A property of the next state. -/
def next (o : Host.Outcome State Fault Refusal) (p : State → Bool) : Bool :=
  match o with
  | .next t => p t
  | _ => false

/-- `resp` and `rdata` of the last transaction. -/
def returned (t : State) : Option (Resp × Nat) := t.response.map fun r => (r.resp, r.rdata.toNat)

/-- A grid word, as a number. -/
def wordAt (t : State) (g : GridWord) : Option Nat := (memRead t.engine g).map BitVec.toNat

/-- The transaction of a command word and its data, in a state. -/
def present (s : State) (w : Word32) (d : Nat) : Host.Outcome State Fault Refusal :=
  step (s.present w (BitVec.ofNat _ d))

/-- The transaction returns FAULT and zeros, and leaves this STATUS and this FCMD. -/
def faults (s : State) (w : Word32) (d : Nat) (status fcmd : Word32) : Bool :=
  next (present s w d) fun t =>
    returned t = some (.fault, 0) && statusReg t.engine = status && fcmdReg t.engine = fcmd

/-- The transaction returns OK and this data, and leaves this STATUS. -/
def answers (s : State) (w : Word32) (d rdata : Nat) (status : Word32) : Bool :=
  next (present s w d) fun t => returned t = some (.ok, rdata) && statusReg t.engine = status

/-! ### WellFormed: an ill-formed term for each check -/

theorem test_wf_refuses_wide_wr : (Instr.wr 256).wf = false := by decide
theorem test_wf_refuses_wide_rd : (Instr.rd 256).wf = false := by decide
theorem test_wf_refuses_wide_prop : (Instr.prop 256).wf = false := by decide
theorem test_wf_refuses_wide_run : (Instr.run 256).wf = false := by decide
theorem test_wf_refuses_wide_rdcsr : (Instr.rdcsr 256).wf = false := by decide

/-! ### Decoding: words written out field by field from R103 to R105 (OPC, MBZ, ARG) -/

theorem test_decode_nop : decode (0b00000000#8 ++ 0#16 ++ 0b00000000#8) = .ok .nop := by decide
theorem test_decode_newb : decode (0b00000001#8 ++ 0#16 ++ 0b00000000#8) = .ok .newb := by decide
theorem test_decode_wr : decode (0b00000010#8 ++ 0#16 ++ 0b01101100#8) = .ok (.wr 108) := by decide
theorem test_decode_rd : decode (0b00000011#8 ++ 0#16 ++ 0b11111111#8) = .ok (.rd 255) := by decide
theorem test_decode_init : decode (0b00000100#8 ++ 0#16 ++ 0b00000000#8) = .ok .init := by decide
theorem test_decode_prop : decode (0b00000101#8 ++ 0#16 ++ 0b00101000#8) = .ok (.prop 40) := by
  decide
theorem test_decode_run : decode (0b00000110#8 ++ 0#16 ++ 0b11111111#8) = .ok (.run 255) := by
  decide
theorem test_decode_rdcsr : decode (0b00000111#8 ++ 0#16 ++ 0b00000011#8) = .ok (.rdcsr 3) := by
  decide

/-- V1: the words of the table that decode to Illegal. -/
theorem test_decode_illegal :
    ([0x00000001#32, 0x010000FF#32, 0x04000001#32, 0x08000000#32, 0xFF000000#32, 0x06000105#32,
      0x06800005#32, 0xFFFFFFFF#32].all fun w => !(decode w).isOk) = true := by decide

/-- V1, the other way: the words of these commands. -/
theorem test_encode :
    [Instr.nop, .newb, .wr 80, .rd 107, .init, .prop 40, .run 255, .rdcsr 3].map encode =
      [0x00000000#32, 0x01000000#32, 0x02000050#32, 0x0300006B#32, 0x04000000#32, 0x05000028#32,
        0x060000FF#32, 0x07000003#32] := by decide

theorem test_decodeTableWord : decodeTableWord 32 0x05000028 = some (.prop 40) := by decide

/-- A host that stores the word where the step fetches gets the transaction of that word. -/
theorem test_withFetchWord :
    (State.reset.withFetchWord 32 0x06000005).pending = [.command 0x06000005#32 0] := by decide

/-! ### Masks, words and packing -/

/-- S2: the exactly-one-bit test. -/
theorem test_onehot9 :
    [0x000#9, 0x001#9, 0x003#9, 0x100#9, 0x180#9, 0x1FF#9].map onehot9 =
      [false, true, false, true, false, false] := by decide

/-- S3: row, column and box of these cells. -/
theorem test_geometry :
    ([0, 8, 9, 30, 40, 53, 60, 72, 80] : List (Fin 81)).map (fun i => (rowOf i, colOf i, boxOf i)) =
      [(0, 0, 0), (0, 8, 2), (1, 0, 0), (3, 3, 4), (4, 4, 4), (5, 8, 5), (6, 6, 8), (8, 0, 6),
        (8, 8, 8)] := by decide

/-- V10: seven lanes packed. -/
theorem test_pack_l7 :
    (packLanes (c := .l7) fun j => 1#9 <<< j.val).toNat = 0x1004010040100401 ∧
      (packLanes (c := .l7) fun _ => 0x100#9).toNat = 0x4020100804020100 := by decide +kernel

/-- V11: sixteen lanes packed. -/
theorem test_pack_l16 :
    (packLanes (c := .l16) fun j => 1#9 <<< (j.val % 9)).toNat =
      0x0040002000100008000400020001010000800040002000100008000400020001 := by decide +kernel

/-- V13: the data check of WR, L7. -/
theorem test_wellFormed_l7 :
    ([0x0, 0x4020100804020100, 0x3, 0x1FF, 0x8000000000000000, 0x201, 0x300, 0x7FFFFFFFFFFFFFFF]
        : List (BusWord .l7)).map wellFormedData =
      [true, true, false, false, false, true, true, false] := by decide +kernel

/-- V14: the data check of WR, L16. -/
theorem test_wellFormed_l16 :
    ([0x0100010001000100010001000100010001000100010001000100010001000100, 0x200, 0x8000, 0x101,
        0x0001000000000000000000000000000000000000000000000000000000000000, 0xFFFF]
        : List (BusWord .l16)).map wellFormedData =
      [true, false, false, false, true, false] := by decide +kernel

/-! ### One step from the reset state (V12, V15, V35, V40) -/

/-- The block with cell 0 written (V12). -/
def oneCell : State :=
  { State.resetOf .l7 with engine := memWrite (Engine.reset .l7) 0 0x4000000040000010#63 }

/-- V40: two words that decode to Illegal. -/
theorem test_illegal_faults :
    faults State.reset 0x030001C8#32 0 0x11#32 0x030001C8#32 ∧
      faults State.reset 0x09000000#32 0 0x11#32 0x09000000#32 := by decide +kernel

theorem test_nop_completes : answers State.reset 0x00000000#32 0 0 0x0#32 := by decide +kernel

/-- V35: STATUS after NEWB. -/
theorem test_newb_clears : answers oneCell 0x01000000#32 0 0 0x0#32 := by decide +kernel

/-- V12: WR of cell 0. -/
theorem test_wr_stores :
    next (present State.reset 0x02000000#32 0x4000000040000010) (fun t =>
      returned t = some (.ok, 0) && wordAt t (.cell 0) = some 0x4000000040000010) := by
  decide +kernel

/-- V15, V40: the faults of WR. -/
theorem test_wr_faults :
    faults State.reset 0x02000051#32 0 0x31#32 0x02000051#32 ∧
      faults State.reset 0x02000003#32 3 0x41#32 0x02000003#32 ∧
      faults State.reset 0x0200006C#32 0 0x21#32 0x0200006C#32 ∧
      faults State.reset 0x020000C8#32 3 0x21#32 0x020000C8#32 ∧
      faults State.reset 0x0200005A#32 3 0x31#32 0x0200005A#32 := by decide +kernel

/-- V12: RD of cell 0. -/
theorem test_rd_reads : answers oneCell 0x03000000#32 0 0x4000000040000010 0x0#32 := by
  decide +kernel

/-- V15, V40: the faults of RD. -/
theorem test_rd_faults :
    faults State.reset 0x03000000#32 0 0x51#32 0x03000000#32 ∧
      faults State.reset 0x03000051#32 0 0x51#32 0x03000051#32 ∧
      faults State.reset 0x030000C8#32 0 0x21#32 0x030000C8#32 := by decide +kernel

/-- V40: INIT, PROP and RUN on an empty grid. -/
theorem test_uninit_faults :
    faults State.reset 0x04000000#32 0 0x51#32 0x04000000#32 ∧
      faults State.reset 0x05000051#32 0 0x21#32 0x05000051#32 ∧
      faults State.reset 0x06000005#32 0 0x51#32 0x06000005#32 ∧
      faults State.reset 0x06000000#32 0 0x51#32 0x06000000#32 := by decide +kernel

/-- V35: CONFIG of the two configurations. -/
theorem test_rdcsr_config :
    answers (State.resetOf .l7) 0x07000000#32 0 0x907 0x0#32 ∧
      answers (State.resetOf .l16) 0x07000000#32 0 0x1010 0x0#32 := by decide +kernel

/-- The block faulted by `RD 200` (V41). -/
def faulted : State :=
  { State.resetOf .l7 with
    engine := { Engine.reset .l7 with fault := some ⟨.badAddr, 0x030000C8#32⟩ } }

/-- V41: what the faulted block answers. -/
theorem test_faulted_block :
    faults faulted 0x00000000#32 0 0x21#32 0x030000C8#32 ∧
      faults faulted 0x02000000#32 0 0x21#32 0x030000C8#32 ∧
      faults faulted 0x09000000#32 0 0x21#32 0x030000C8#32 ∧
      faults faulted 0x07000009#32 0 0x21#32 0x030000C8#32 ∧
      answers faulted 0x07000001#32 0 0x21 0x21#32 ∧
      answers faulted 0x07000002#32 0 0x030000C8 0x21#32 := by decide +kernel

/-- V41: reset leaves the faulted state. -/
theorem test_reset_clears :
    next (step { faulted with pending := [.reset] }) (fun t =>
      statusReg t.engine = 0 && fcmdReg t.engine = 0) := by decide +kernel

/-! ### The cell step of one lane (V21) -/

theorem test_step9_single : step9 ⟨0x024#9, 0x064#9, 0x120#9, 0x000#9⟩ =
    ⟨0x004#9, 0x044#9, 0x100#9, 0x020#9⟩ := by decide
theorem test_step9_two_candidates : step9 ⟨0x024#9, 0x064#9, 0x124#9, 0x000#9⟩ =
    ⟨0x024#9, 0x064#9, 0x124#9, 0x000#9⟩ := by decide
theorem test_step9_contradiction : step9 ⟨0x003#9, 0x00C#9, 0x1FF#9, 0x000#9⟩ =
    ⟨0x003#9, 0x00C#9, 0x1FF#9, 0x000#9⟩ := by decide
theorem test_step9_solved_keeps : step9 ⟨0x002#9, 0x002#9, 0x002#9, 0x010#9⟩ =
    ⟨0x002#9, 0x002#9, 0x002#9, 0x010#9⟩ := by decide
theorem test_step9_lowest_digit : step9 ⟨0x001#9, 0x1FF#9, 0x001#9, 0x000#9⟩ =
    ⟨0x000#9, 0x1FE#9, 0x000#9, 0x001#9⟩ := by decide

/-! ### The mixed batch of V22 and V36 -/

/-- EX. -/
def ex : List (Fin 10) :=
  [5, 3, 0, 0, 7, 0, 0, 0, 0] ++ [6, 0, 0, 1, 9, 5, 0, 0, 0] ++ [0, 9, 8, 0, 0, 0, 0, 6, 0] ++
  [8, 0, 0, 0, 6, 0, 0, 0, 3] ++ [4, 0, 0, 8, 0, 3, 0, 0, 1] ++ [7, 0, 0, 0, 2, 0, 0, 0, 6] ++
  [0, 6, 0, 0, 0, 0, 2, 8, 0] ++ [0, 0, 0, 4, 1, 9, 0, 0, 5] ++ [0, 0, 0, 0, 8, 0, 0, 7, 9]

/-- EXS. -/
def exs : List (Fin 10) :=
  [5, 3, 4, 6, 7, 8, 9, 1, 2] ++ [6, 7, 2, 1, 9, 5, 3, 4, 8] ++ [1, 9, 8, 3, 4, 2, 5, 6, 7] ++
  [8, 5, 9, 7, 6, 1, 4, 2, 3] ++ [4, 2, 6, 8, 5, 3, 7, 9, 1] ++ [7, 1, 3, 9, 2, 4, 8, 5, 6] ++
  [9, 6, 1, 5, 3, 7, 2, 8, 4] ++ [2, 8, 7, 4, 1, 9, 6, 3, 5] ++ [3, 4, 5, 2, 8, 6, 1, 7, 9]

/-- The digit of a board at a cell; cells past the end of the list are blank. -/
def digitAt (b : List (Fin 10)) (i : Fin 81) : Fin 10 := b.getD i.val 0

/-- The cell words of given boards, one for each lane (R73). -/
def cellWords (boards : Fin 7 → List (Fin 10)) : Vector (LaneWord .l7) 81 :=
  Vector.ofFn fun i => packLanes (c := .l7) fun j => maskOfDigit (digitAt (boards j) i)

/-- The boards of V22: lanes 0, 3, 6 hold EX, lanes 1, 5 hold EXS, lanes 2, 4 are blank. -/
def mixedBoards (j : Fin 7) : List (Fin 10) :=
  match j.val with
  | 0 | 3 | 6 => ex
  | 1 | 5 => exs
  | _ => []

def mixedWords : Vector (LaneWord .l7) 81 := cellWords mixedBoards

/-- EXS in every lane (S8). -/
def solvedWords : Vector (LaneWord .l7) 81 := cellWords fun _ => exs

/-- Cell 0 is blank and sees the nine digits: it has no candidate (R179). -/
def stuckWords : Vector (LaneWord .l7) 81 := cellWords fun _ =>
  [0, 1, 2, 3, 4, 5, 6, 7, 8] ++ [9, 0, 0, 0, 0, 0, 0, 0, 0]

/-- The grid that INIT makes of cell words. -/
def gridOf (ws : Vector (LaneWord .l7) 81) : Grid .l7 := { cells := ws, accs := initAccs ws }

/-- The block that holds a grid, every word valid. -/
def blockOf (g : Grid .l7) : State :=
  { State.resetOf .l7 with engine := (Engine.reset .l7).withGrid g }

/-- The block with its 81 cells loaded, before INIT. -/
def loadedBlock (ws : Vector (LaneWord .l7) 81) : State :=
  { State.resetOf .l7 with engine := { Engine.reset .l7 with cells := ws.map some } }

/-- V17: INIT of EX, in lane 0, and STATUS after it (V35). -/
theorem test_init_accumulators :
    next (present (loadedBlock mixedWords) 0x04000000#32 0) (fun t =>
      returned t = some (.ok, 0) && statusReg t.engine = 0x6#32 &&
        ([GridUnit.mk .row 0, ⟨.col, 0⟩, ⟨.box, 0⟩].map fun u =>
          (wordAt t (.acc u)).map (· % 512)) = [some 0x1AB, some 0x107, some 0x04B]) := by
  decide +kernel

/-- V22: PROP 40 on the mixed lanes. -/
theorem test_prop_mixed :
    next (present (blockOf (gridOf mixedWords)) 0x05000028#32 0) (fun t =>
      returned t = some (.ok, 0) &&
        ([GridWord.cell 40, .acc ⟨.row, 4⟩, .acc ⟨.col, 4⟩, .acc ⟨.box, 4⟩].map (wordAt t)) =
          [some 0x0402000080002010, some 0x58801FFB17FC0162, some 0x03001FF067FC000C,
            some 0x52401FFA4FFC0149]) := by decide +kernel

/-- V20: cells of lane 0 after the first round: 40 = 5, 48 = 9, 58 = 3, 59 = 7, 62 = 4, 70 = 3. -/
theorem test_run_one_round :
    next (present (blockOf (gridOf mixedWords)) 0x06000001#32 0) (fun t =>
      ([40, 48, 58, 59, 62, 70, 2].map fun i : Fin 81 => (wordAt t (.cell i)).map (· % 512)) =
        [some 0x010, some 0x100, some 0x004, some 0x040, some 0x008, some 0x004, some 0x000]) := by
  decide +kernel

/-- V36: LDONE straight after loading. -/
theorem test_rdcsr_ldone : answers (loadedBlock mixedWords) 0x07000003#32 0 0x22 0x4#32 := by
  decide +kernel

/-! ### The assembler (R108, R109) -/

/-- Some lines and their command words. -/
theorem test_assemble :
    (assemble .l7
        "NOP\nRD BOX8 ; the last word\nPROP 0x28\nRDCSR LDONE\nSOLVE 5\nRDROW 8".toList).map
        (fun l => l.map fun h => encode h.instr) =
      some [0x00000000#32, 0x0300006B#32, 0x05000028#32, 0x07000003#32, 0x04000000#32,
        0x06000005#32, 0x03000059#32] := by decide +kernel

/-- A write with its data word; an operand that ARG cannot hold. -/
theorem test_assemble_wr :
    assembleLine .l7 "WR C80, 0x4020_1008_0402_0100".toList =
        some [{ instr := .wr 80, wdata := 0x4020100804020100#64 }] ∧
      assembleLine .l7 "RUN 256".toList = none := by decide +kernel

/-! ### Witnesses: what the hypotheses of the statements ask for, met together -/

/-- A lane of CPE-L7. -/
abbrev ln (j : Fin 7) : Fin Cfg.l7.lanes := j

theorem lane_cellWords (boards : Fin 7 → List (Fin 10)) (i : Fin 81) (j : Fin 7) :
    lane (cellWords boards)[i] (ln j) = maskOfDigit (digitAt (boards j) i) := by
  unfold cellWords
  rw [Fin.getElem_fin, Vector.getElem_ofFn]
  exact lane_packLanes (c := .l7) _ (ln j)

theorem gridOf_cellWords_legal (boards : Fin 7 → List (Fin 10)) :
    (gridOf (cellWords boards)).Legal := by
  refine initGrid_legal fun i => ⟨?_, fun j => ?_⟩
  · unfold cellWords
    rw [Fin.getElem_fin, Vector.getElem_ofFn, padBits_packLanes]
  · rw [lane_cellWords boards i j]
    exact blankOrOneHot_maskOfDigit _

theorem mixed_legal : (gridOf mixedWords).Legal := gridOf_cellWords_legal _

theorem solved_legal : (gridOf solvedWords).Legal := gridOf_cellWords_legal _

theorem blockOf_legal {g : Grid .l7} (h : g.Legal) : (blockOf g).engine.Legal :=
  engine_legal_withGrid h (fun f hf => by cases hf)

theorem blockOf_grid (g : Grid .l7) : (blockOf g).engine.grid = some g := grid_withGrid _ g

/-- Every operand at both ends of what ARG holds. -/
theorem witness_DecodeOfEncode :
    ([.nop, .newb, .wr 0, .wr 255, .rd 0, .rd 255, .init, .prop 0, .prop 255, .run 0, .run 255,
      .rdcsr 0, .rdcsr 255].all Instr.wf) = true := by decide

theorem witness_EncodeOfDecode : decode 0x060000FF#32 = .ok (.run 255) := by decide

/-- A command at the head of the host's stream, in a block with a valid grid. -/
def waiting (w : Word32) : State := { blockOf (gridOf mixedWords) with pending := [.command w 0] }

theorem witness_StepRunsDecodedCommand :
    (waiting 0x05000028#32).pending = .command 0x05000028#32 0 :: [] ∧
      decode 0x05000028#32 = .ok (.prop 40) := ⟨rfl, by decide⟩

/-- The three clauses, each at a boundary of its range. -/
theorem witness_IllegalWordFaults :
    (waiting 0x06000105#32).pending = .command 0x06000105#32 0 :: [] ∧
      (waiting 0x06000105#32).engine.err = false ∧
      BitVec.extractLsb' 8 16 0x06000105#32 ≠ 0#16 ∧
      7 < (BitVec.extractLsb' 24 8 0x08000000#32).toNat ∧
      BitVec.extractLsb' 24 8 0x00000001#32 = 0x00#8 ∧ BitVec.extractLsb' 0 8 0x00000001#32 ≠ 0#8 ∧
      BitVec.extractLsb' 24 8 0x010000FF#32 = 0x01#8 ∧ BitVec.extractLsb' 0 8 0x010000FF#32 ≠ 0#8 ∧
      BitVec.extractLsb' 24 8 0x04000001#32 = 0x04#8 ∧ BitVec.extractLsb' 0 8 0x04000001#32 ≠ 0#8 :=
  ⟨rfl, rfl, by decide, by decide, by decide, by decide, by decide, by decide, by decide, by decide⟩

theorem witness_ResetGivesResetState :
    ({ faulted with pending := [.reset] } : State).pending = .reset :: [] := rfl

theorem witness_IdleStepWaits : (blockOf (gridOf mixedWords)).pending = [] := rfl

/-- NopCompletes and NewbInvalidatesGrid: a block that is not faulted, and one that is. -/
theorem witness_notFaulted_and_faulted :
    State.reset.engine.err = false ∧ (blockOf (gridOf mixedWords)).engine.err = false ∧
      faulted.engine.err = true := ⟨rfl, rfl, rfl⟩

/-- Each clause at a boundary of its range: cell 80 with nines in every lane, cell 80 with two bits in
a lane, the accumulators 81 and 107, address 108, and a faulted block. -/
theorem witness_WrStoresCell :
    State.reset.engine.err = false ∧
      wellFormedData (c := .l7)
        ({ State.reset with wdata := 0x4020100804020100#64 } : State).wdata = true ∧
      (80 : Fin 81).val = 80 ∧
      (80 ≤ 80 ∧
        wellFormedData (c := .l7) ({ State.reset with wdata := 3 } : State).wdata = false) ∧
      (81 ≤ 81 ∧ 81 ≤ 107) ∧ (81 ≤ 107 ∧ 107 ≤ 107) ∧ 107 < 108 ∧ faulted.engine.err = true :=
  ⟨rfl, by decide +kernel, rfl, ⟨by decide, by decide +kernel⟩, by decide, by decide, by decide,
    rfl⟩

/-- Valid words in one block; invalid ones, and AV = 0, in another; the ends of the ranges. -/
theorem witness_RdReturnsWord :
    (blockOf (gridOf mixedWords)).engine.err = false ∧
      (∀ i : Fin 81, (blockOf (gridOf mixedWords)).engine.cells[i] = some mixedWords[i]) ∧
      (blockOf (gridOf mixedWords)).engine.accs = some (initAccs mixedWords) ∧
      State.reset.engine.err = false ∧ State.reset.engine.cv 0 = false ∧
      State.reset.engine.cv 80 = false ∧ State.reset.engine.av = false ∧ (81 ≤ 107 ∧ 107 ≤ 107) ∧
      107 < 108 :=
  ⟨rfl, withGrid_cells _ _, rfl, rfl, by decide, by decide, rfl, by decide, by decide⟩

theorem witness_InitBuildsAccumulators :
    (blockOf (gridOf mixedWords)).engine.err = false ∧
      (∀ i : Fin 81, (blockOf (gridOf mixedWords)).engine.cells[i] = some mixedWords[i]) ∧
      State.reset.engine.err = false ∧ State.reset.engine.cv 80 = false :=
  ⟨rfl, withGrid_cells _ _, rfl, by decide⟩

/-- Cell 40 has a one-hot value in lane 0 and none in lane 2: both clauses. -/
theorem witness_PropDoesOneCellStep :
    (blockOf (gridOf mixedWords)).engine.err = false ∧
      (blockOf (gridOf mixedWords)).engine.accs = some (gridOf mixedWords).accs ∧
      (∀ k : Fin 81,
        (blockOf (gridOf mixedWords)).engine.cells[k] = some (gridOf mixedWords).cells[k]) ∧
      onehot9 (((gridOf mixedWords).laneGrid (ln 0)).cand 40 |||
        ((gridOf mixedWords).laneGrid (ln 0)).cell 40) = true ∧
      onehot9 (((gridOf mixedWords).laneGrid (ln 2)).cand 40 |||
        ((gridOf mixedWords).laneGrid (ln 2)).cell 40) = false ∧
      State.reset.engine.err = false ∧ State.reset.engine.av = false ∧ 80 ≤ 80 ∧ 80 < 81 :=
  ⟨rfl, rfl, withGrid_cells _ _, by decide +kernel, by decide +kernel, rfl, rfl, by decide,
    by decide⟩

theorem witness_RunDoesRounds :
    (blockOf (gridOf mixedWords)).engine.err = false ∧
      (blockOf (gridOf mixedWords)).engine.accs = some (gridOf mixedWords).accs ∧
      (∀ k : Fin 81,
        (blockOf (gridOf mixedWords)).engine.cells[k] = some (gridOf mixedWords).cells[k]) ∧
      State.reset.engine.err = false ∧ State.reset.engine.av = false :=
  ⟨rfl, rfl, withGrid_cells _ _, rfl, rfl⟩

/-- The last clause: register 4, in a block that is faulted and in one that is not. -/
theorem witness_RdcsrReadsRegisters :
    3 < 4 ∧ State.reset.engine.err = false ∧ faulted.engine.err = true := ⟨by decide, rfl, rfl⟩

/-- The words of the table's cells, each at a boundary of its range: none of them leaves a legal,
unfaulted block without a fault. -/
theorem witness_FaultsAreExactlyAsListed :
    State.reset.engine.Legal ∧ State.reset.engine.err = false ∧
      (([0x08000000#32, 0x0200006C#32, 0x02000051#32, 0x02000050#32, 0x03000050#32, 0x0300006B#32,
          0x0300006C#32, 0x04000000#32, 0x05000050#32, 0x05000051#32, 0x06000000#32, 0x07000004#32]
          : List Word32).all fun w =>
        next (present State.reset w 3) fun t => t.engine.err) = true := by
  refine ⟨?_, rfl, by decide +kernel⟩
  have hc : ∀ (i : Fin 81) (w : LaneWord .l7), State.reset.engine.cells[i] ≠ some w := by
    intro i w h
    have := reset_cells .l7 i
    exact absurd (this.symm.trans h) (by simp)
  exact ⟨fun i w h => absurd h (hc i w), (fun h => by cases h), (fun a h => by cases h),
    (fun g h => by cases h), (fun f h => by cases h)⟩

theorem witness_FaultedBlockDropsCommands :
    faulted.engine.err = true ∧ csrOf 3 = some .ldone ∧ (∀ n, n ≤ 3 → Instr.rdcsr 4 ≠ .rdcsr n) ∧
      (∀ n, n ≤ 3 → Instr.init ≠ .rdcsr n) ∧ ∀ i, decode 0x09000000#32 ≠ .ok i := by
  refine ⟨rfl, rfl, fun n hn h => ?_, (fun n _ h => by cases h), fun i h => ?_⟩
  · injection h with h
    omega
  · rw [show decode 0x09000000#32 = .error .reservedOpc by decide] at h
    cases h

theorem witness_OnlyResetLeavesFaultedState :
    faulted.engine.err = true ∧ (∀ rest, faulted.pending ≠ .reset :: rest) ∧
      ({ faulted with pending := [.reset] } : State).pending = .reset :: [] :=
  ⟨rfl, (fun _ h => by cases h), rfl⟩

theorem witness_ResponseTellsCompletion : ∃ t, exec (.rdcsr 1) faulted = .next t := ⟨_, rfl⟩

theorem witness_WdataIsUsedByWrOnly : ∀ a, Instr.rd 80 ≠ .wr a := fun a h => by cases h

/-- RD and RDCSR, both returning OK, and RD returning FAULT. -/
theorem witness_ReadsAreIdempotent :
    (next (exec (.rd 80) (blockOf (gridOf mixedWords)))
        (fun t => t.response.any fun r => r.resp = .ok) = true) ∧
      next (exec (.rdcsr 3) (blockOf (gridOf mixedWords)))
        (fun t => t.response.any fun r => r.resp = .ok) = true ∧
      next (exec (.rd 108) State.reset)
        (fun t => t.response.any fun r => r.resp = .fault) = true := by decide +kernel

theorem witness_ValidBitsChangeAsListed :
    (([.nop, .newb, .wr 80, .rdcsr 0] : List Instr).all
        fun i => next (exec i State.reset) fun t => !t.engine.err) = true ∧
      (([.rd 80, .init, .prop 80, .run 0] : List Instr).all
        fun i => next (exec i (blockOf (gridOf solvedWords))) fun t => !t.engine.err) = true := by
  decide +kernel

/-- A pad bit's place in each configuration. -/
theorem witness_PackingPlacesLanes :
    (∀ (j : Fin 7) (k : Fin 9), 63 ≠ Cfg.l7.stride * j.val + k.val) ∧
      ∀ (j : Fin 16) (k : Fin 9), 9 ≠ Cfg.l16.stride * j.val + k.val := by decide +kernel

theorem witness_WellFormedDataMeaning :
    State.reset.engine.err = false ∧
      wellFormedData (c := .l7) ({ State.reset with wdata := 3 } : State).wdata = false :=
  ⟨rfl, by decide +kernel⟩

theorem witness_OtherCommandsKeepCell :
    Instr.wr 1 ≠ .newb ∧ (∀ n, Instr.wr 1 ≠ .prop n) ∧ (∀ r, Instr.wr 1 ≠ .run r) ∧
      Instr.wr 1 ≠ .wr (0 : Fin 81).val :=
  ⟨by decide, (fun n h => by cases h), (fun r h => by cases h), by decide⟩

theorem witness_WrThenRdReturnsWord :
    State.reset.engine.err = false ∧ wellFormedData (c := .l7) 0x4000000040000010#64 = true ∧
      ({ State.reset with
          pending := [.command (encode (.wr 0)) 0x4000000040000010#64,
            .command (encode (.rd 0)) 0] } : State).pending =
        .command (encode (.wr (0 : Fin 81).val)) 0x4000000040000010#64 ::
          .command (encode (.rd (0 : Fin 81).val)) 0 :: [] :=
  ⟨rfl, by decide +kernel, rfl⟩

theorem witness_StepKeepsLegal :
    (waiting 0x06000001#32).engine.Legal ∧ ∃ t, step (waiting 0x06000001#32) = .next t :=
  ⟨blockOf_legal mixed_legal, by
    rcases step_cases (waiting 0x06000001#32) with ⟨_, h⟩ | ⟨_, _, h⟩ | ⟨_, _, _, _, _, _, h⟩ |
      ⟨_, _, _, _, _, _, h⟩ <;> exact ⟨_, h⟩⟩

theorem witness_FaultRecordNamesCommand :
    ({ (blockOf (gridOf mixedWords)).engine with fault := some ⟨.badAddr, 0x030000C8#32⟩ }
        : Engine .l7).Legal ∧
      ({ (blockOf (gridOf mixedWords)).engine with fault := some ⟨.badAddr, 0x030000C8#32⟩ }
        : Engine .l7).err = true := by
  refine ⟨?_, rfl⟩
  refine engine_legal_withGrid (e := { Engine.reset .l7 with fault := some _ }) mixed_legal
    fun f hf => ?_
  injection hf with hf
  subst hf
  show FaultRecord.Fits _
  unfold FaultRecord.Fits
  rw [show decode 0x030000C8#32 = .ok (.rd 200) by decide]
  decide

theorem witness_InvAsComplementOfUnion :
    ∀ i : Fin 81, LegalCellWord (gridOf mixedWords).cells[i] := mixed_legal.cells

theorem witness_InitOrderDoesNotMatter :
    (List.finRange 81).reverse.Perm (List.finRange 81) := List.reverse_perm _

theorem witness_InitAfterRunChangesNothing :
    (blockOf (gridOf mixedWords)).engine.Legal ∧ (blockOf (gridOf mixedWords)).engine.err = false ∧
      (blockOf (gridOf mixedWords)).engine.av = true := ⟨blockOf_legal mixed_legal, rfl, rfl⟩

theorem witness_LaneOrderDoesNotMatter :
    (List.finRange 7).reverse.Perm (List.finRange Cfg.l7.lanes) := List.reverse_perm _

/-- The three clauses: cell 40 of lane 0, cell 40 of lane 2, cell 40 of lane 1. -/
theorem witness_CellStepCases :
    (gridOf mixedWords).Legal ∧
      (lane (gridOf mixedWords).cells[(40 : Fin 81)] (ln 0) = 0#9 ∧
        onehot9 (((gridOf mixedWords).laneGrid (ln 0)).cand 40) = true) ∧
      (lane (gridOf mixedWords).cells[(40 : Fin 81)] (ln 2) = 0#9 ∧
        onehot9 (((gridOf mixedWords).laneGrid (ln 2)).cand 40) = false) ∧
      (gridOf mixedWords).Solved 40 (ln 1) :=
  ⟨mixed_legal, by decide +kernel, by decide +kernel, by decide +kernel⟩

/-- A legal grid with a solved and an unsolved cell in lane 0. -/
theorem witness_EliminationIsMonotone :
    (gridOf mixedWords).Legal ∧ (gridOf mixedWords).Solved 0 (ln 0) ∧
      lane (gridOf mixedWords).cells[(2 : Fin 81)] (ln 0) = 0#9 :=
  ⟨mixed_legal, by decide +kernel, by decide +kernel⟩

theorem solved_everywhere (i : Fin 81) (j : Fin Cfg.l7.lanes) :
    (gridOf solvedWords).Solved i j := by
  refine (congrArg onehot9 (lane_cellWords (fun _ => exs) i j)).trans ?_
  revert i
  decide +kernel

theorem witness_SolvedCellStepChangesNothing :
    (gridOf solvedWords).Legal ∧ ∀ (i : Fin 81) (j : Fin Cfg.l7.lanes),
      (gridOf solvedWords).Solved i j := ⟨solved_legal, solved_everywhere⟩

/-- A solved grid is at rest. -/
theorem solved_cellStep (i : Fin 81) : cellStep (gridOf solvedWords) i = gridOf solvedWords := by
  obtain ⟨h1, h2⟩ := cellStep_pads (gridOf solvedWords) i
  refine grid_ext_lanes (fun j => ?_) h1 h2
  rw [laneGrid_cellStep]
  exact laneStep_of_solved (laneGrid_legal solved_legal j) (solved_everywhere i j)

theorem solved_steps (l : List (Fin 81)) :
    stepCells l (gridOf solvedWords) = gridOf solvedWords := by
  induction l with
  | nil => rfl
  | cons i l ih =>
    rw [stepCells, List.foldl_cons, solved_cellStep]
    exact ih

theorem witness_IdempotentPastFixpoint :
    gridRound (gridOf solvedWords) = gridOf solvedWords ∧
      (gridOf solvedWords).SameLane (ln 0) (gridRound (gridOf solvedWords)) := by
  rw [show gridRound (gridOf solvedWords) = gridOf solvedWords from solved_steps _]
  exact ⟨rfl, sameLane_iff.mpr rfl⟩

/-- Lane 1 has no unsolved cell, lane 2 has 81. -/
theorem witness_RoundsConverge :
    (gridOf mixedWords).Legal ∧
      ((List.finRange 81).filter fun i =>
        decide (lane (gridOf mixedWords).cells[i] (ln 1) = 0#9)).length ≤ 0 ∧
      ((List.finRange 81).filter fun i =>
        decide (lane (gridOf mixedWords).cells[i] (ln 2) = 0#9)).length ≤ 81 ∧ 81 ≤ 81 :=
  ⟨mixed_legal, by decide +kernel, (List.length_filter_le _ _).trans (by simp), by decide⟩

/-- EXS as an assignment; digit d is `d - 1`. -/
def solution (i : Fin 81) : Fin 9 :=
  ⟨(exs.getD i.val 1).val - 1, by have := (exs.getD i.val 1).isLt; omega⟩

theorem solution_valid : ValidSudoku solution := by
  intro k
  cases k <;> decide +kernel

/-- A board whose clues EXS has agrees with EXS. -/
theorem agrees_solution (boards : Fin 7 → List (Fin 10)) (j : Fin 7)
    (h : ∀ i : Fin 81, onehot9 (maskOfDigit (digitAt (boards j) i)) = true →
      maskOfDigit (digitAt (boards j) i) = 1#9 <<< (solution i).val) :
    (gridOf (cellWords boards)).Agrees (ln j) solution := by
  intro i hi
  unfold Grid.Solved at hi
  have hl : lane (gridOf (cellWords boards)).cells[i] (ln j) = _ := lane_cellWords boards i j
  rw [hl] at hi ⊢
  exact h i hi

/-- Lane 0 holds EX, which EXS extends. -/
theorem witness_CommitsAreSound :
    (gridOf mixedWords).Legal ∧ ValidSudoku solution ∧
      (gridOf mixedWords).Agrees (ln 0) solution :=
  ⟨mixed_legal, solution_valid, agrees_solution _ _ (by decide +kernel)⟩

/-- EXS in every lane, less its digits 5 at cell 0 and 9 at cell 80. -/
def nearlyWords : Vector (LaneWord .l7) 81 := cellWords fun _ => (exs.set 0 0).set 80 0

/-- A lane whose accumulators are empty is at rest when every cell is solved. -/
theorem laneAtRest_of_done {g : Grid .l7} {j : Fin Cfg.l7.lanes} (hs : ∀ i, g.Solved i j)
    (ha : ∀ (k : UnitKind) (n : Fin 9), lane (g.accs.get ⟨k, n⟩) j = 0#9) : g.LaneAtRest j := by
  intro i
  rw [sameLane_iff, laneGrid_cellStep]
  have hacc : ∀ u, (g.laneGrid j).acc u = 0#9 := fun u => ha u.kind u.index
  refine LaneGrid.ext (funext fun k => ?_) (funext fun u => ?_)
  · have hi : onehot9 ((g.laneGrid j).cell i) = true := hs i
    show (g.laneGrid j).cell k =
      if k = i then (g.laneGrid j).cell k ||| (g.laneGrid j).commit i else (g.laneGrid j).cell k
    rcases commit_of_solved hi with h | h
    · rw [h, BitVec.or_zero, ite_self]
    · split_ifs with hk
      · rw [h, hk, BitVec.or_self]
      · rfl
  · simp only [LaneGrid.step, hacc]
    split_ifs <;> simp [andNot]

/-- Two orders that commit the two missing digits one after the other come to rest. -/
theorem witness_FixpointIsOrderIndependent :
    (gridOf nearlyWords).Legal ∧ ValidSudoku solution ∧
      (gridOf nearlyWords).Agrees (ln 0) solution ∧
      (stepCells [80, 0] (gridOf nearlyWords)).LaneAtRest (ln 0) ∧
      (stepCells [0, 40, 80] (gridOf nearlyWords)).LaneAtRest (ln 0) :=
  ⟨gridOf_cellWords_legal _, solution_valid, agrees_solution _ _ (by decide +kernel),
    laneAtRest_of_done (by decide +kernel) (by intro k; cases k <;> decide +kernel),
    laneAtRest_of_done (by decide +kernel) (by intro k; cases k <;> decide +kernel)⟩

/-- The lane was not at rest before: cell 0 was blank. -/
theorem witness_FixpointIsOrderIndependent_start :
    lane (gridOf nearlyWords).cells[(0 : Fin 81)] (ln 0) = 0#9 := by decide +kernel

/-- Lanes that agree with a valid Sudoku have no duplicate. -/
theorem noDuplicate_of_agrees {g : Grid .l7} {j : Fin Cfg.l7.lanes} (h : g.Agrees j solution) :
    g.NoDuplicate j := by
  intro k i i' hu hs he
  have hs' : g.Solved i' j := by
    unfold Grid.Solved
    rw [← he]
    exact hs
  refine solution_valid k i i' hu (digitMask_injective ?_)
  rw [← h i hs, ← h i' hs', he]

theorem witness_NoDuplicateIsCreated :
    (gridOf mixedWords).Legal ∧ (gridOf mixedWords).NoDuplicate (ln 0) :=
  ⟨mixed_legal, noDuplicate_of_agrees witness_CommitsAreSound.2.2⟩

theorem witness_DoneLaneIsValidSudoku :
    (blockOf (gridOf mixedWords)).engine.grid = some (gridOf mixedWords) ∧
      (gridOf mixedWords).NoDuplicate (ln 1) ∧
      (ldoneReg (blockOf (gridOf mixedWords)).engine).getLsbD 1 = true :=
  ⟨blockOf_grid _, noDuplicate_of_agrees (agrees_solution _ _ (by decide +kernel)),
    by decide +kernel⟩

theorem witness_ContradictionIsSilent :
    (blockOf (gridOf stuckWords)).engine.err = false ∧
      (blockOf (gridOf stuckWords)).engine.grid = some (gridOf stuckWords) ∧
      lane (gridOf stuckWords).cells[(0 : Fin 81)] (ln 0) = 0#9 ∧
      ((gridOf stuckWords).laneGrid (ln 0)).cand 0 = 0#9 :=
  ⟨rfl, blockOf_grid _, by decide +kernel, by decide +kernel⟩

theorem witness_RunsCompose : ∃ t, exec (.run 0) (blockOf (gridOf mixedWords)) = .next t :=
  ⟨_, exec_eq _ _⟩

/-- Two blocks with 1 in lane 0, and in lane 1 the digit 1 and a blank; data that differ as well. -/
theorem witness_LanesAreIsolated :
    (memWrite (Engine.reset .l7) 0 0x201#63).SameLane (ln 0)
        (memWrite (Engine.reset .l7) 0 0x001#63) ∧
      wellFormedData (c := .l7) 0x400#64 = wellFormedData (c := .l7) 0x200#64 ∧
      lane (c := .l7) (fromBus (c := .l7) 0x400#64) (ln 0) =
        lane (c := .l7) (fromBus (c := .l7) 0x200#64) (ln 0) :=
  ⟨⟨by decide +kernel, fun _ => rfl, rfl⟩, by decide +kernel, by decide +kernel⟩

theorem witness_LoadgWritesEveryCell :
    State.reset.engine.err = false ∧
      ∀ i : Fin 81, wellFormedData (c := .l7)
        (Vector.replicate 81 (0x4020100804020100#64 : BusWord .l7))[i] = true :=
  ⟨rfl, by decide +kernel⟩

theorem witness_SolveIsInitThenRun :
    255 < 256 ∧ (blockOf (gridOf mixedWords)).engine.err = false ∧
      (blockOf (gridOf mixedWords)).engine.words = some mixedWords :=
  ⟨by decide, rfl, words_eq_some_iff.mpr (withGrid_cells _ _)⟩

/-- A batch run of EX that writes and reads the cells in descending order, and reads one accumulator
first, as R237 lets the host do. -/
def exBatch : Batch .l7 :=
  { newb := true, words := clueWords fun _ => digitAt ex, order := (List.finRange 81).reverse,
    rounds := 6, reads := 81 :: ((List.finRange 108).filter fun a => decide (a.val ≤ 80)).reverse }

theorem exBatch_valid : exBatch.Valid :=
  ⟨List.reverse_perm _, by decide, by decide +kernel, by decide +kernel⟩

/-- In a block that is not faulted, and in one that is. -/
theorem witness_BatchEndsWellExactlyWithoutFault :
    exBatch.Valid ∧ State.reset.engine.err = false ∧ faulted.engine.err = true :=
  ⟨exBatch_valid, rfl, rfl⟩

theorem witness_BatchRunEndsWell :
    exBatch.Valid ∧ State.reset.engine.err = false ∧
      (∀ i : Fin 81, wellFormedData exBatch.words[i] = true) ∧
      exBatch.reads[0]? = some 81 ∧ exBatch.reads[81]? = some 0 :=
  ⟨exBatch_valid, rfl, by decide +kernel, by decide +kernel, by decide +kernel⟩

/-- The ascending batch run is one of them. -/
theorem test_batchRun_ascending :
    (Batch.ascending true exBatch.words 6).Valid ∧
      (batchRun true exBatch.words 6).length = 1 + 81 + 3 + 108 :=
  ⟨batch_ascending_valid _ _ (by decide), rfl⟩

end Sys2Proof.Tests
end

/-!
PROOFS. The scope of the block (spec/00_scope.md): the step of a command transaction (R16), the
geometry of the cells (R14) and the word `ONES` (R12).
-/

namespace Sys2Proof.Machine

variable {c : Cfg}

/-! ### The step of a transaction -/

/-- The third clause of `step`, with the transaction taken to the port (R100). -/
theorem step_of_decode_eq_ok {s : State} {cmd : Word32} {wdata : BusWord s.cfg}
    {rest : List (HostEvent s.cfg)} {i : Instr} (hp : s.pending = .command cmd wdata :: rest)
    (hd : decode cmd = .ok i) : step s = exec i (s.accept cmd wdata rest) := by
  unfold step
  rw [hp]
  simp only [hd]

/-- Settles O6: `State.accept` is the update the statement writes out. -/
theorem stepRunsDecodedCommand : Obligations.StepRunsDecodedCommand := by
  intro s cmd wdata rest i hp hd
  exact step_of_decode_eq_ok hp hd

/-! ### The geometry of the cells -/

/-- A cell lies in its row, its column and its box, and in no other unit (R14). -/
theorem has_iff (u : GridUnit) (i : Fin 81) :
    u.has i ↔ u = ⟨.row, rowOf i⟩ ∨ u = ⟨.col, colOf i⟩ ∨ u = ⟨.box, boxOf i⟩ := by
  obtain ⟨k, n⟩ := u
  cases k with
  | row => simp [unitOf, eq_comm]
  | col => simp [unitOf, eq_comm]
  | box => simp [unitOf, eq_comm]

/-- A unit holds nine cells (R14): a finite count for each kind. -/
theorem length_filter_has (u : GridUnit) :
    ((List.finRange 81).filter fun i => decide (u.has i)).length = 9 := by
  obtain ⟨k, n⟩ := u
  cases k with
  | row => revert n; decide
  | col => revert n; decide
  | box => revert n; decide

/-- Settles O26: the coordinates are the definitions' own, the units are counted kind by kind. -/
theorem cellGeometry : Obligations.CellGeometry :=
  ⟨fun _ => ⟨rfl, rfl, rfl⟩, fun i u => has_iff u i, length_filter_has⟩

/-! ### The word ONES -/

/-- `ONES` is the word with every lane full and no pad bit set (R12, R153). -/
theorem onesWord_eq_of_lanes {w : LaneWord c} (hl : ∀ j, lane w j = 0x1FF#9)
    (hp : padBits w = 0) : onesWord c = w :=
  laneWord_ext (fun j => (lane_onesWord j).trans (hl j).symm) (padBits_onesWord.trans hp.symm)

/-- Settles O28: both literals have every lane full and no pad bit set. -/
theorem onesWordValue : Obligations.OnesWordValue :=
  ⟨onesWord_eq_of_lanes (by decide) (by decide), onesWord_eq_of_lanes (by decide) (by decide)⟩

end Sys2Proof.Machine

/-!
PROOFS. The state of the block (spec/10_state.md): the state after reset (R49) with its valid bits
and status registers, and what each command does to CV and AV (R41).
-/

namespace Sys2Proof.Machine

variable {c : Cfg}

/-! ### The block after reset -/

@[simp] theorem reset_cv (i : Fin 81) : (Engine.reset c).cv i = false := by simp [Engine.cv]

@[simp] theorem reset_av : (Engine.reset c).av = false := rfl

@[simp] theorem reset_err : (Engine.reset c).err = false := rfl

@[simp] theorem reset_cause : (Engine.reset c).cause = 0#4 := rfl

@[simp] theorem reset_words : (Engine.reset c).words = none :=
  words_eq_none_iff.mpr ⟨0, reset_cells c 0⟩

@[simp] theorem reset_call : (Engine.reset c).call = false := by simp [Engine.call]

@[simp] theorem memRead_reset (g : GridWord) : memRead (Engine.reset c) g = none := by
  cases g with
  | cell i => exact reset_cells c i
  | acc u => rfl

theorem statusReg_reset : statusReg (Engine.reset c) = 0 := by
  simp only [statusReg, reset_cause, reset_call, reset_av, reset_err]
  rfl

theorem fcmdReg_reset : fcmdReg (Engine.reset c) = 0 := rfl

theorem ldoneReg_reset : ldoneReg (Engine.reset c) = 0 := by
  unfold ldoneReg
  rw [reset_words]

/-- The second clause of `step` (R230). -/
theorem step_of_reset {s : State} {rest : List (HostEvent s.cfg)}
    (hp : s.pending = .reset :: rest) : step s = .next (applyReset s rest) := by
  unfold step
  rw [hp]
  rfl

/-- Settles O8: the step applies reset, and the registers are computed from a block in which nothing
is valid. -/
theorem resetGivesResetState : Obligations.ResetGivesResetState := by
  intro s rest hp
  exact ⟨step_of_reset hp, reset_cv, reset_av, reset_err, memRead_reset, statusReg_reset,
    fcmdReg_reset, ldoneReg_reset⟩

/-! ### The valid bits after each update of the block -/

section validBits
variable (e : Engine c)

@[simp] theorem memWrite_av (i : Fin 81) (w : LaneWord c) : (memWrite e i w).av = false := rfl

@[simp] theorem memWrite_cv (i k : Fin 81) (w : LaneWord c) :
    (memWrite e i w).cv k = (e.cv k || decide (i.val = k.val)) := by
  by_cases h : i.val = k.val <;> simp [Engine.cv, h]

@[simp] theorem invalidateAll_av : (invalidateAll e).av = false := rfl

@[simp] theorem invalidateAll_cv (k : Fin 81) : (invalidateAll e).cv k = false := by
  simp [Engine.cv]

@[simp] theorem withAccs_av (a : Option (Accs c)) :
    ({ e with accs := a } : Engine c).av = a.isSome := rfl

@[simp] theorem withAccs_cv (a : Option (Accs c)) (k : Fin 81) :
    ({ e with accs := a } : Engine c).cv k = e.cv k := rfl

@[simp] theorem withGrid_av (g : Grid c) : (e.withGrid g).av = true := rfl

@[simp] theorem withGrid_cv (g : Grid c) (k : Fin 81) : (e.withGrid g).cv k = true := by
  simp [Engine.cv]

end validBits

/-- The same words of the two blocks are valid (R34, R37). -/
def Engine.SameValid (e e' : Engine c) : Prop := e'.av = e.av ∧ ∀ k : Fin 81, e'.cv k = e.cv k

theorem sameValid_refl (e : Engine c) : e.SameValid e := ⟨rfl, fun _ => rfl⟩

/-- PROP and RUN replace a grid that is valid as a whole by another one (R164, R165). -/
theorem sameValid_withGrid {e : Engine c} {g : Grid c} (hg : e.grid = some g) (g' : Grid c) :
    e.SameValid (e.withGrid g') := by
  have hsame : (e.withGrid g).SameValid (e.withGrid g') := by simp [Engine.SameValid]
  rwa [withGrid_of_grid hg] at hsame

/-! ### What a command that leaves no fault does to the valid bits -/

/-- No command clears ERR (R208). -/
theorem err_of_commandReply_err {i : Instr} {cmd : Word32} {w : BusWord c} {e : Engine c}
    (h : (commandReply i cmd w e).engine.err = false) : e.err = false := by
  rcases commandReply_cases i cmd w e with ⟨_, _, hr⟩ | ⟨_, _, _, _, _, hr⟩ | ⟨he, _⟩ | ⟨he, _⟩
  · simpa [hr] using h
  · simpa [hr] using h
  · exact he
  · exact he

section noFault
variable {e : Engine c} {cmd : Word32} (he : e.err = false)
include he

theorem wrReply_valid {a : Nat} {w : BusWord c} (h : (wrReply a cmd w e).engine.err = false) :
    (wrReply a cmd w e).engine.av = false ∧
      ∀ k : Fin 81, (wrReply a cmd w e).engine.cv k = (e.cv k || decide (a = k.val)) := by
  rcases wrReply_cases he a cmd w with ⟨_, hr⟩ | ⟨_, _, hr⟩ | ⟨_, _, _, hr⟩ | ⟨i, rfl, _, hr⟩
  · simp [hr] at h
  · simp [hr] at h
  · simp [hr] at h
  · simp [hr]

theorem initReply_valid (h : (initReply cmd e).engine.err = false) :
    (initReply cmd e).engine.av = true ∧
      ∀ k : Fin 81, (initReply cmd e).engine.cv k = e.cv k := by
  rcases initReply_cases he cmd with ⟨_, hr⟩ | ⟨ws, _, hr⟩
  · simp [hr] at h
  · simp [hr]

theorem rdReply_sameValid {a : Nat} (h : (rdReply a cmd e).engine.err = false) :
    e.SameValid (rdReply a cmd e).engine := by
  rcases rdReply_cases he a cmd with ⟨_, hr⟩ | ⟨_, _, _, hr⟩ | ⟨_, _, _, _, hr⟩
  · simp [hr] at h
  · simp [hr] at h
  · rw [hr]
    exact sameValid_refl e

theorem propReply_sameValid {n : Nat} (h : (propReply n cmd e).engine.err = false) :
    e.SameValid (propReply n cmd e).engine := by
  rcases propReply_cases he n cmd with ⟨_, hr⟩ | ⟨_, _, hr⟩ | ⟨i, g, _, hg, hr⟩
  · simp [hr] at h
  · simp [hr] at h
  · rw [hr]
    exact sameValid_withGrid hg (cellStep g i)

theorem runReply_sameValid {r : Nat} (h : (runReply r cmd e).engine.err = false) :
    e.SameValid (runReply r cmd e).engine := by
  rcases runReply_cases he r cmd with ⟨_, hr⟩ | ⟨g, hg, hr⟩
  · simp [hr] at h
  · rw [hr]
    exact sameValid_withGrid hg (rounds r g)

theorem rdcsrReply_sameValid {n : Nat} (h : (rdcsrReply n cmd e).engine.err = false) :
    e.SameValid (rdcsrReply n cmd e).engine := by
  rcases rdcsrReply_cases n cmd e with ⟨_, _, hr⟩ | ⟨_, hr⟩
  · rw [hr]
    exact sameValid_refl e
  · simp [hr, requireNotErr_of_not_err he] at h

end noFault

/-- Settles O25: without a fault a command completes, and each one's update of the block says which
valid bits it sets and clears. -/
theorem validBitsChangeAsListed : Obligations.ValidBitsChangeAsListed := by
  intro i s t ht hfault
  rw [exec_eq] at ht
  cases ht
  rw [answer_engine] at hfault ⊢
  have he : s.engine.err = false := err_of_commandReply_err hfault
  cases i with
  | nop => simp [commandReply, nopReply_eq he]
  | newb => simp [commandReply, newbReply_eq he]
  | wr a => exact wrReply_valid he hfault
  | rd a => exact rdReply_sameValid he hfault
  | init => exact initReply_valid he hfault
  | prop n => exact propReply_sameValid he hfault
  | run r => exact runReply_sameValid he hfault
  | rdcsr n => exact rdcsrReply_sameValid he hfault

end Sys2Proof.Machine

/-!
PROOFS. The memory of the block (spec/20_memory.md): packing (R70 to R73), reads (R79) and the
isolation of the lanes (R83).
-/

namespace Sys2Proof.Machine

variable {c : Cfg}

/-! ### Packed words -/

/-- A bit in a lane's field, at its place in the word (R70). -/
theorem getLsbD_lane_bit (w : LaneWord c) (j : Fin c.lanes) (k : Fin 9) :
    w.getLsbD (c.stride * j.val + k.val) = (lane w j).getLsbD k.val := by
  rw [getLsbD_lane, decide_eq_true k.isLt, Bool.true_and, laneBase]

theorem not_inLane_of_ne {b : Nat}
    (h : ∀ (j : Fin c.lanes) (k : Fin 9), b ≠ c.stride * j.val + k.val) : ¬ InLane c b := by
  rintro ⟨j, hle, hlt⟩
  exact h j ⟨b - laneBase c j, by omega⟩ (Nat.add_sub_of_le hle).symm

/-- Settles O27: lane j of a packed word is the j-th mask, and packing writes no bit outside the
lanes. -/
theorem packingPlacesLanes : Obligations.PackingPlacesLanes := by
  intro c m
  constructor
  · intro j k
    rw [getLsbD_lane_bit, lane_packLanes]
  · intro b hb
    rw [packLanes, getLsbD_foldl_setLane_of_not_inLane m _ _ (not_inLane_of_ne hb)]
    exact BitVec.getLsbD_zero

/-! ### Words on the bus -/

theorem toBus_andNot (a b : LaneWord c) : toBus (andNot a b) = andNot (toBus a) (toBus b) := by
  apply BitVec.eq_of_getLsbD_eq
  intro i _
  simp only [getLsbD_andNot, getLsbD_toBus]

theorem toBus_eq_zero_iff {w : LaneWord c} : toBus w = 0 ↔ w = 0 := by
  have hzero : toBus (0 : LaneWord c) = 0 := BitVec.setWidth_zero ..
  rw [← hzero]
  exact ⟨fun h => toBus_injective h, congrArg toBus⟩

/-- The check of WR on a word put on the bus is R33's condition on the word a cell holds (R134). -/
theorem wellFormedData_toBus_iff {w : LaneWord c} :
    wellFormedData (toBus w) = true ↔ LegalCellWord w := by
  have hpads : andNot (toBus w) (toBus (onesWord c)) = 0 ↔ padBits w = 0 := by
    rw [← toBus_andNot, toBus_eq_zero_iff, padBits]
  simp only [wellFormedData, LegalCellWord, Bool.and_eq_true, decide_eq_true_eq, hpads,
    List.all_eq_true, List.mem_finRange, true_implies, fromBus_toBus]

/-- Settles O30: a clue word is packed, so it has no pad bits, and its lanes are the masks of the
digits. -/
theorem packedBoardsAreWellFormed : Obligations.PackedBoardsAreWellFormed := by
  intro c boards i
  constructor
  · rw [clueWord, wellFormedData_toBus_iff]
    exact ⟨padBits_packLanes _, fun j => by rw [lane_packLanes, blankOrOneHot_maskOfDigit]⟩
  · intro j
    rw [clueWord, fromBus_toBus, lane_packLanes, digitOfMask_maskOfDigit]

/-! ### Reads -/

/-- A read completes on the block as it is, is dropped by a faulted block, or does the fault entry
(R137, R191, R207). -/
theorem read_cases {i : Instr} (hi : (∃ a, i = .rd a) ∨ ∃ n, i = .rdcsr n) (cmd : Word32)
    (w : BusWord c) (e : Engine c) :
    (∃ d, commandReply i cmd w e = complete e d) ∨
    (e.err = true ∧ commandReply i cmd w e = drop e) ∨
    (e.err = false ∧ ∃ x, commandReply i cmd w e = raise x cmd e) := by
  rcases commandReply_cases i cmd w e with
    ⟨he, _, hr⟩ | ⟨_, r, _, _, _, hr⟩ | ⟨he, _, hr⟩ | ⟨_, hcsr, e', d, hr, _, _, hrd⟩
  · exact .inr (.inl ⟨he, hr⟩)
  · exact .inl ⟨_, hr⟩
  · exact .inr (.inr ⟨he, hr⟩)
  · have hrd' : ∃ a, i = .rd a := hi.resolve_right fun ⟨n, hn⟩ => hcsr n hn
    rw [hrd hrd'] at hr
    exact .inl ⟨d, hr⟩

/-- A command that completes on the block as it is answers the same when it is repeated (R79). -/
theorem exec_repeat {i : Instr} {s : State} {d : BusWord s.cfg}
    (hr : commandReply i s.cmd s.wdata s.engine = complete s.engine d) :
    exec i (s.answer (complete s.engine d)) = .next (s.answer (complete s.engine d)) := by
  rw [exec_eq]
  exact congrArg (fun r => Host.Outcome.next ((s.answer (complete s.engine d)).answer r)) hr

theorem resp_of_answer {s : State} {r : Reply s.cfg} {x : Resp}
    (h : ∃ q, (s.answer r).response = some q ∧ q.resp = x) : r.response.resp = x := by
  obtain ⟨q, hq, hx⟩ := h
  cases hq
  exact hx

/-- Settles O24, by the three ways a read can end. -/
theorem readsAreIdempotent : Obligations.ReadsAreIdempotent := by
  intro i s t hi ht
  rw [exec_eq] at ht
  cases ht
  rcases read_cases hi s.cmd s.wdata s.engine with ⟨d, hr⟩ | ⟨he, hr⟩ | ⟨_, x, hr⟩
  · rw [hr]
    exact ⟨fun _ => ⟨exec_repeat hr, _, rfl⟩, fun hfault => (nomatch resp_of_answer hfault)⟩
  · rw [hr]
    exact ⟨fun hok => (nomatch resp_of_answer hok), fun _ herr => (nomatch he.symm.trans herr)⟩
  · rw [hr]
    exact ⟨fun hok => (nomatch resp_of_answer hok), fun _ _ => ⟨x, rfl⟩⟩

/-! ### What blocks that are the same in a lane hold

What is valid in one block is valid in the other, so their optional contents are related by
`Option.Rel`: both absent, or both present and the same in the lane (R83). -/

/-- The same 81 words in a lane. -/
def SameLaneWords (j : Fin c.lanes) (ws ws' : Vector (LaneWord c) 81) : Prop :=
  ∀ i : Fin 81, lane ws[i] j = lane ws'[i] j

/-- The same 27 accumulators in a lane. -/
def Accs.SameLane (j : Fin c.lanes) (a a' : Accs c) : Prop :=
  ∀ u : GridUnit, lane (a.get u) j = lane (a'.get u) j

theorem rel_of_map_eq {α β : Type} {f : α → β} {o o' : Option α} (h : o.map f = o'.map f) :
    Option.Rel (fun a a' => f a = f a') o o' :=
  match o, o', h with
  | none, none, _ => .none
  | some _, some _, h => .some (Option.some.inj h)

section sameLane
variable {j : Fin c.lanes} {e e' : Engine c} (h : e.SameLane j e')
include h

theorem sameLane_err : e.err = e'.err := by
  obtain ⟨_, _, hfault⟩ := h
  exact congrArg Option.isSome hfault

theorem sameLane_memRead (g : GridWord) :
    Option.Rel (fun w w' => lane w j = lane w' j) (memRead e g) (memRead e' g) := by
  obtain ⟨hcells, haccs, _⟩ := h
  apply rel_of_map_eq
  cases g with
  | cell i => exact hcells i
  | acc u =>
    rw [memRead, memRead, Option.map_map, Option.map_map]
    exact haccs u

theorem sameLane_accs : Option.Rel (Accs.SameLane j) e.accs e'.accs := by
  obtain ⟨_, haccs, _⟩ := h
  match e.accs, e'.accs, haccs with
  | none, none, _ => exact .none
  | some a, some a', haccs => exact .some fun u => Option.some.inj (haccs u)
  | none, some _, haccs => cases haccs ⟨.row, 0⟩
  | some _, none, haccs => cases haccs ⟨.row, 0⟩

theorem sameLane_words_eq_none_iff : e.words = none ↔ e'.words = none := by
  obtain ⟨hcells, _, _⟩ := h
  have hnone (i : Fin 81) : e.cells[i] = none ↔ e'.cells[i] = none := by
    rw [← Option.map_eq_none_iff, hcells i, Option.map_eq_none_iff]
  simp only [words_eq_none_iff, hnone]

theorem sameLane_words : Option.Rel (SameLaneWords j) e.words e'.words := by
  have hnone := sameLane_words_eq_none_iff h
  obtain ⟨hcells, _, _⟩ := h
  cases hw : e.words with
  | none =>
    rw [hnone.mp hw]
    exact .none
  | some ws =>
    have hsome : e'.words ≠ none := fun hn => by cases hw.symm.trans (hnone.mpr hn)
    obtain ⟨ws', hw'⟩ := Option.ne_none_iff_exists'.mp hsome
    rw [hw']
    refine .some fun i => ?_
    have hi := hcells i
    rw [words_eq_some_iff.mp hw, words_eq_some_iff.mp hw'] at hi
    exact Option.some.inj hi

theorem sameLane_grid : Option.Rel (Grid.SameLane j) e.grid e'.grid := by
  unfold Engine.grid
  match e.accs, e'.accs, sameLane_accs h with
  | _, _, .none => exact .none
  | _, _, .some ha =>
    match e.words, e'.words, sameLane_words h with
    | _, _, .none => exact .none
    | _, _, .some hw => exact .some ⟨hw, ha⟩

/-! ### The updates of the block -/

theorem sameLane_memWrite {w w' : LaneWord c} (hw : lane w j = lane w' j) (i : Fin 81) :
    (memWrite e i w).SameLane j (memWrite e' i w') := by
  obtain ⟨hcells, _, hfault⟩ := h
  refine ⟨fun k => ?_, fun _ => rfl, hfault⟩
  by_cases hk : k = i
  · subst hk
    rw [memWrite_cells_self, memWrite_cells_self]
    exact congrArg some hw
  · rw [memWrite_cells_ne _ _ _ hk, memWrite_cells_ne _ _ _ hk]
    exact hcells k

theorem sameLane_invalidateAll : (invalidateAll e).SameLane j (invalidateAll e') := by
  obtain ⟨_, _, hfault⟩ := h
  exact ⟨fun k => by rw [invalidateAll_cells, invalidateAll_cells], fun _ => rfl, hfault⟩

theorem sameLane_withAccs {a a' : Accs c} (ha : a.SameLane j a') :
    ({ e with accs := some a } : Engine c).SameLane j { e' with accs := some a' } := by
  obtain ⟨hcells, _, hfault⟩ := h
  exact ⟨hcells, fun u => congrArg some (ha u), hfault⟩

theorem sameLane_withGrid {g g' : Grid c} (hg : g.SameLane j g') :
    (e.withGrid g).SameLane j (e'.withGrid g') := by
  obtain ⟨_, _, hfault⟩ := h
  obtain ⟨hcells, haccs⟩ := hg
  refine ⟨fun i => ?_, fun u => congrArg some (haccs u), hfault⟩
  rw [withGrid_cells, withGrid_cells]
  exact congrArg some (hcells i)

end sameLane

/-! ### The computations on a lane -/

theorem initAccs_sameLane {j : Fin c.lanes} {ws ws' : Vector (LaneWord c) 81}
    (h : SameLaneWords j ws ws') : (initAccs ws).SameLane j (initAccs ws') := fun u =>
  mask_ext fun k => by
    rw [Bool.eq_iff_iff, lane_initAccs_bit, lane_initAccs_bit]
    simp only [h _]

theorem stepCells_sameLane {j : Fin c.lanes} {g g' : Grid c} (h : g.SameLane j g')
    (l : List (Fin 81)) : (stepCells l g).SameLane j (stepCells l g') := by
  rw [sameLane_iff, laneGrid_stepCells, laneGrid_stepCells, sameLane_iff.mp h]

theorem laneDone_sameLane {j : Fin c.lanes} {ws ws' : Vector (LaneWord c) 81}
    (h : SameLaneWords j ws ws') : laneDone ws j = laneDone ws' j := by
  unfold laneDone
  simp only [h _]

theorem ldoneReg_sameLane {j : Fin c.lanes} {e e' : Engine c} (h : e.SameLane j e') :
    (ldoneReg e).getLsbD j.val = (ldoneReg e').getLsbD j.val := by
  unfold ldoneReg
  match e.words, e'.words, sameLane_words h with
  | _, _, .none => rfl
  | _, _, .some hw =>
    simp only [BitVec.getLsbD_ofFnLE, j.isLt, dite_true]
    exact laneDone_sameLane hw

/-! ### The commands -/

/-- The data two blocks return are the same as far as R83 asks: lane j of a word read, bit j of
LDONE. -/
def SameRead (i : Instr) (j : Fin c.lanes) (d d' : BusWord c) : Prop :=
  ((∃ a, i = .rd a) → lane (fromBus d) j = lane (fromBus d') j) ∧
    (i = .rdcsr 3 → d.getLsbD j.val = d'.getLsbD j.val)

theorem sameRead_refl (i : Instr) (j : Fin c.lanes) (d : BusWord c) : SameRead i j d d :=
  ⟨fun _ => rfl, fun _ => rfl⟩

/-- Two blocks that have run the same command stand the same in lane j and have returned the same
there. -/
structure Reply.SameLane (i : Instr) (j : Fin c.lanes) (r r' : Reply c) : Prop where
  engine : r.engine.SameLane j r'.engine
  resp : r.response.resp = r'.response.resp
  rdata : SameRead i j r.response.rdata r'.response.rdata

section replies
variable {i : Instr} {j : Fin c.lanes} {e e' : Engine c} (h : e.SameLane j e') {cmd : Word32}
include h

theorem complete_sameLane {d d' : BusWord c} (hd : SameRead i j d d') :
    (complete e d).SameLane i j (complete e' d') := ⟨h, rfl, hd⟩

theorem drop_sameLane : (drop e).SameLane i j (drop e') := ⟨h, rfl, sameRead_refl i j 0⟩

theorem raise_sameLane (x : Cause) : (raise x cmd e).SameLane i j (raise x cmd e') := by
  obtain ⟨hcells, haccs, _⟩ := h
  exact ⟨⟨hcells, haccs, rfl⟩, rfl, sameRead_refl i j 0⟩

theorem requireNotErr_sameLane {k k' : Reply c} (hk : k.SameLane i j k') :
    (requireNotErr e k).SameLane i j (requireNotErr e' k') := by
  unfold requireNotErr
  rw [← sameLane_err h]
  split
  · exact drop_sameLane h
  · exact hk

theorem nopReply_sameLane : (nopReply e).SameLane i j (nopReply e') :=
  requireNotErr_sameLane h (complete_sameLane h (sameRead_refl i j 0))

theorem newbReply_sameLane : (newbReply e).SameLane i j (newbReply e') :=
  requireNotErr_sameLane h (complete_sameLane (sameLane_invalidateAll h) (sameRead_refl i j 0))

theorem wrReply_sameLane (a : Nat) {d d' : BusWord c} (hwf : wellFormedData d = wellFormedData d')
    (hd : lane (fromBus d) j = lane (fromBus d') j) :
    (wrReply a cmd d e).SameLane i j (wrReply a cmd d' e') := by
  refine requireNotErr_sameLane h ?_
  rw [hwf]
  cases gridWord a with
  | none => exact raise_sameLane h .badAddr
  | some g =>
    cases g with
    | acc u => exact raise_sameLane h .roWrite
    | cell k =>
      dsimp only
      split
      · exact complete_sameLane (sameLane_memWrite h hd k) (sameRead_refl i j 0)
      · exact raise_sameLane h .badData

theorem rdReply_sameLane (a : Nat) : (rdReply a cmd e).SameLane (.rd a) j (rdReply a cmd e') := by
  refine requireNotErr_sameLane h ?_
  cases gridWord a with
  | none => exact raise_sameLane h .badAddr
  | some g =>
    dsimp only
    match memRead e g, memRead e' g, sameLane_memRead h g with
    | _, _, .none => exact raise_sameLane h .uninit
    | _, _, .some hw =>
      refine complete_sameLane h ⟨fun _ => ?_, nofun⟩
      rw [fromBus_toBus, fromBus_toBus, hw]

theorem initReply_sameLane : (initReply cmd e).SameLane i j (initReply cmd e') := by
  refine requireNotErr_sameLane h ?_
  match e.words, e'.words, sameLane_words h with
  | _, _, .none => exact raise_sameLane h .uninit
  | _, _, .some hw =>
    exact complete_sameLane (sameLane_withAccs h (initAccs_sameLane hw)) (sameRead_refl i j 0)

theorem propReply_sameLane (n : Nat) : (propReply n cmd e).SameLane i j (propReply n cmd e') := by
  refine requireNotErr_sameLane h ?_
  cases cellIndex n with
  | none => exact raise_sameLane h .badAddr
  | some k =>
    dsimp only
    match e.grid, e'.grid, sameLane_grid h with
    | _, _, .none => exact raise_sameLane h .uninit
    | _, _, .some hg =>
      exact complete_sameLane (sameLane_withGrid h (stepCells_sameLane hg [k]))
        (sameRead_refl i j 0)

theorem runReply_sameLane (r : Nat) : (runReply r cmd e).SameLane i j (runReply r cmd e') := by
  refine requireNotErr_sameLane h ?_
  match e.grid, e'.grid, sameLane_grid h with
  | _, _, .none => exact raise_sameLane h .uninit
  | _, _, .some hg =>
    dsimp only
    rw [rounds_eq_stepCells, rounds_eq_stepCells]
    exact complete_sameLane (sameLane_withGrid h (stepCells_sameLane hg (roundCells r)))
      (sameRead_refl i j 0)

theorem csrValue_sameRead {n : Nat} {r : Csr} (hr : csrOf n = some r) :
    SameRead (.rdcsr n) j (csrValue r e) (csrValue r e') := by
  refine ⟨nofun, ?_⟩
  rintro ⟨⟩
  cases hr
  simp only [csrValue, BitVec.getLsbD_setWidth, ldoneReg_sameLane h]

theorem rdcsrReply_sameLane (n : Nat) :
    (rdcsrReply n cmd e).SameLane (.rdcsr n) j (rdcsrReply n cmd e') := by
  unfold rdcsrReply
  cases hr : csrOf n with
  | none => exact requireNotErr_sameLane h (raise_sameLane h .badAddr)
  | some r => exact complete_sameLane h (csrValue_sameRead h hr)

/-- **R83, for every command**: lane j of what it leaves and returns depends on lane j of what it
reads alone. -/
theorem commandReply_sameLane (i : Instr) {d d' : BusWord c}
    (hwf : wellFormedData d = wellFormedData d') (hd : lane (fromBus d) j = lane (fromBus d') j) :
    (commandReply i cmd d e).SameLane i j (commandReply i cmd d' e') := by
  cases i with
  | nop => exact nopReply_sameLane h
  | newb => exact newbReply_sameLane h
  | wr a => exact wrReply_sameLane h a hwf hd
  | rd a => exact rdReply_sameLane h a
  | init => exact initReply_sameLane h
  | prop n => exact propReply_sameLane h n
  | run r => exact runReply_sameLane h r
  | rdcsr n => exact rdcsrReply_sameLane h n

end replies

/-- Settles O51: every command is a transaction, and each transaction keeps blocks the same in the
lane. -/
theorem lanesAreIsolated : Obligations.LanesAreIsolated := by
  intro c j e e' cmd d d' x p i h hwf hd
  obtain ⟨hengine, hresp, hrd, hldone⟩ := commandReply_sameLane (cmd := cmd) h i hwf hd
  exact ⟨_, _, _, _, exec_eq .., exec_eq .., hengine, hresp, hrd, hldone⟩

end Sys2Proof.Machine

/-!
PROOFS. The encoding of the commands (spec/30_encoding.md): the decoder and the encoder are inverse
(R103 to R106), the rows of the opcode map (R105), the count of the legal words (R106), Illegal
words (R107), the response (R101), `wdata` (R102) and the pseudo-instructions (R109).
-/

namespace Sys2Proof

/-! ### The decoder and the encoder -/

/-- A command is well formed exactly when ARG can hold its operand (R104). -/
theorem wf_iff_argOf_lt {i : Instr} : i.wf = true ↔ argOf i < 256 := by
  cases i with
  | nop | newb | init => simp [Instr.wf, argOf]
  | wr n | rd n | prop n | run n | rdcsr n => simp [Instr.wf, argOf, argFits]

/-- The fields a word must have to decode to a command are enough: the converse of
`decode_eq_ok_cases`. -/
theorem decode_of_fields {w : Word32} {i : Instr} (hm : mbzField w = 0#16)
    (ho : opcField w = opcOf i) (ha : (argField w).toNat = argOf i) : decode w = .ok i := by
  rw [decode, if_neg (not_not.mpr hm), ho, ha]
  cases i <;> rfl

theorem decode_eq_ok_iff {w : Word32} {i : Instr} :
    decode w = .ok i ↔
      mbzField w = 0#16 ∧ opcField w = opcOf i ∧ (argField w).toNat = argOf i :=
  ⟨decode_eq_ok_cases, fun ⟨hm, ho, ha⟩ => decode_of_fields hm ho ha⟩

theorem decode_encode {i : Instr} (h : i.wf = true) : decode (encode i) = .ok i := by
  obtain ⟨ho, hm, ha⟩ := Laws.fields_of_encoding (wf_iff_argOf_lt.mp h)
  exact decode_of_fields hm ho ha

theorem decode_of_encode_eq {w : Word32} {i : Instr} (hwf : i.wf = true) (he : encode i = w) :
    decode w = .ok i := by
  rw [← he, decode_encode hwf]

theorem wf_of_decode {w : Word32} {i : Instr} (h : decode w = .ok i) : i.wf = true := by
  obtain ⟨_, _, ha⟩ := decode_eq_ok_cases h
  rw [wf_iff_argOf_lt, ← ha]
  exact (argField w).isLt

theorem encode_of_decode {w : Word32} {i : Instr} (h : decode w = .ok i) : encode i = w := by
  obtain ⟨hm, ho, ha⟩ := decode_eq_ok_cases h
  calc
    encode i = opcField w ++ mbzField w ++ argField w := by
      rw [encode, ← ho, ← ha, hm, BitVec.ofNat_toNat, BitVec.setWidth_eq]
    _ = w := word_of_fields w

/-- The words that decode are the command words of the well-formed commands (R103 to R106). -/
theorem decode_eq_ok_iff_encode {w : Word32} {i : Instr} :
    decode w = .ok i ↔ i.wf = true ∧ encode i = w :=
  ⟨fun h => ⟨wf_of_decode h, encode_of_decode h⟩, fun ⟨hwf, he⟩ => decode_of_encode_eq hwf he⟩

/-- Settles O1: the fields of the encoded command are those the decoder asks for. -/
theorem decodeOfEncode : Obligations.DecodeOfEncode := fun _ h => decode_encode h

/-- Settles O2: the fields of a word that decodes are those of the encoded command, and a word is
its three fields. -/
theorem encodeOfDecode : Obligations.EncodeOfDecode := fun _ _ h => decode_eq_ok_iff_encode.mp h

/-- Settles O5: the eight legal words are command words; the four others fail the three checks of
R106. -/
theorem sampleWordsDecode : Obligations.SampleWordsDecode :=
  ⟨decode_of_encode_eq rfl rfl, decode_of_encode_eq rfl rfl, decode_of_encode_eq rfl rfl,
    decode_of_encode_eq rfl rfl, decode_of_encode_eq rfl rfl, decode_of_encode_eq rfl rfl,
    decode_of_encode_eq rfl rfl, decode_of_encode_eq rfl rfl,
    by decide, by decide, by decide, by decide⟩

/-! ### The opcode map by match and mask (R105) -/

/-- A mask given by its three fields acts on each field of the word. -/
theorem and_fields (w : Word32) (o : BitVec 8) (m : BitVec 16) (a : BitVec 8) :
    w &&& (o ++ m ++ a) = (opcField w &&& o) ++ (mbzField w &&& m) ++ (argField w &&& a) := by
  calc
    w &&& (o ++ m ++ a) = (opcField w ++ mbzField w ++ argField w) &&& (o ++ m ++ a) := by
      rw [word_of_fields]
    _ = ((opcField w ++ mbzField w) &&& (o ++ m)) ++ (argField w &&& a) := BitVec.and_append
    _ = (opcField w &&& o) ++ (mbzField w &&& m) ++ (argField w &&& a) := by
      rw [BitVec.and_append]

/-- The mask of a row with an operand keeps OPC and MBZ. -/
theorem and_opcMbzMask (w : Word32) :
    w &&& 0xFFFFFF00#32 = opcField w ++ mbzField w ++ 0#8 := by
  have hmask : 0xFFFFFF00#32 = BitVec.allOnes 8 ++ BitVec.allOnes 16 ++ 0#8 := by decide
  rw [hmask, and_fields, BitVec.and_allOnes, BitVec.and_allOnes, BitVec.and_zero]

/-- The mask of the operand keeps ARG. -/
theorem and_argMask (w : Word32) : w &&& 0x000000FF#32 = 0#8 ++ 0#16 ++ argField w := by
  have hmask : 0x000000FF#32 = 0#8 ++ 0#16 ++ BitVec.allOnes 8 := by decide
  rw [hmask, and_fields, BitVec.and_allOnes, BitVec.and_zero, BitVec.and_zero]

theorem toNat_and_argMask (w : Word32) : (w &&& 0x000000FF#32).toNat = (argField w).toNat := by
  rw [and_argMask, BitVec.toNat_append]
  simp

/-- A word matches a row with an operand exactly when OPC is the row's and MBZ is zero. -/
theorem and_opcMbzMask_eq_iff {w : Word32} {o : BitVec 8} :
    w &&& 0xFFFFFF00#32 = o ++ 0#16 ++ 0#8 ↔ mbzField w = 0#16 ∧ opcField w = o := by
  rw [and_opcMbzMask]
  constructor
  · intro h
    have hm := congrArg mbzField h
    have ho := congrArg opcField h
    rw [mbzField_append, mbzField_append] at hm
    rw [opcField_append, opcField_append] at ho
    exact ⟨hm, ho⟩
  · rintro ⟨hm, ho⟩
    rw [hm, ho]

/-- A row whose whole word is fixed (mask 0xFFFFFFFF). -/
theorem decode_eq_ok_iff_fixedRow {w : Word32} {i : Instr} (hwf : i.wf = true) :
    decode w = .ok i ↔ w &&& 0xFFFFFFFF#32 = encode i := by
  have hmask : w &&& 0xFFFFFFFF#32 = w := BitVec.and_allOnes
  rw [hmask, decode_eq_ok_iff_encode, and_iff_right hwf, eq_comm]

/-- A row with an operand (mask 0xFFFFFF00). -/
theorem decode_eq_ok_iff_operandRow {w m : Word32} {i : Instr} (o : BitVec 8) (ho : opcOf i = o)
    (hmatch : o ++ 0#16 ++ 0#8 = m) :
    decode w = .ok i ↔
      w &&& 0xFFFFFF00#32 = m ∧ argOf i = (w &&& 0x000000FF#32).toNat := by
  rw [← hmatch, ← ho, decode_eq_ok_iff, and_opcMbzMask_eq_iff, toNat_and_argMask, and_assoc,
    eq_comm (a := argOf i)]

/-- Settles O3: three rows fix the whole word, five fix OPC and MBZ and leave ARG. -/
theorem decodeSelectsTableRow : Obligations.DecodeSelectsTableRow := fun _ =>
  ⟨decode_eq_ok_iff_fixedRow (i := .nop) rfl, decode_eq_ok_iff_fixedRow (i := .newb) rfl,
    decode_eq_ok_iff_fixedRow (i := .init) rfl,
    fun a => decode_eq_ok_iff_operandRow (i := .wr a) 0x02#8 rfl (by decide),
    fun a => decode_eq_ok_iff_operandRow (i := .rd a) 0x03#8 rfl (by decide),
    fun n => decode_eq_ok_iff_operandRow (i := .prop n) 0x05#8 rfl (by decide),
    fun r => decode_eq_ok_iff_operandRow (i := .run r) 0x06#8 rfl (by decide),
    fun n => decode_eq_ok_iff_operandRow (i := .rdcsr n) 0x07#8 rfl (by decide)⟩

/-! ### The legal words (R106) -/

/-- The commands of a row with an operand: one for each value of ARG. -/
def operandRow (f : Nat → Instr) : List Instr := (List.range 256).map f

/-- The commands that some word encodes: three without an operand, and five rows with one. -/
def encodableInstrs : List Instr :=
  [.nop, .newb, .init] ++ operandRow .wr ++ operandRow .rd ++ operandRow .prop ++ operandRow .run ++
    operandRow .rdcsr

theorem mem_operandRow_iff {f : Nat → Instr} {i : Instr} :
    i ∈ operandRow f ↔ ∃ n < 256, f n = i := by
  simp [operandRow]

theorem mem_encodableInstrs_iff {i : Instr} : i ∈ encodableInstrs ↔ i.wf = true := by
  rw [wf_iff_argOf_lt]
  cases i <;> simp [encodableInstrs, mem_operandRow_iff, argOf]

theorem nodup_operandRow {f : Nat → Instr} (h : ∀ m n, f m = f n → m = n) : (operandRow f).Nodup :=
  List.nodup_range.map fun m n => h m n

theorem disjoint_operandRow {f g : Nat → Instr} (h : ∀ m n, f m ≠ g n) :
    (operandRow f).Disjoint (operandRow g) := by
  intro i hf hg
  obtain ⟨m, _, rfl⟩ := mem_operandRow_iff.mp hf
  obtain ⟨n, _, hn⟩ := mem_operandRow_iff.mp hg
  exact h m n hn.symm

/-- Each row lists an operand once, and two rows have no command in common. -/
theorem nodup_encodableInstrs : encodableInstrs.Nodup := by
  simp [encodableInstrs, List.nodup_append', nodup_operandRow, disjoint_operandRow,
    mem_operandRow_iff]

theorem length_encodableInstrs : encodableInstrs.length = 1283 := by
  simp [encodableInstrs, operandRow]

theorem encode_inj_of_wf {i j : Instr} (hi : i.wf = true) (hj : j.wf = true)
    (h : encode i = encode j) : i = j := by
  have hij : (Except.ok i : Except IllegalWord Instr) = .ok j := by
    rw [← decode_encode hi, h, decode_encode hj]
  exact Except.ok.inj hij

/-- Settles O4: the words are the encodings of the encodable commands, no two of which share one. -/
theorem legalWordsAreCounted : Obligations.LegalWordsAreCounted := by
  refine ⟨encodableInstrs.map encode, ?_, ?_, fun w => ?_⟩
  · exact nodup_encodableInstrs.map_on fun i hi j hj =>
      encode_inj_of_wf (mem_encodableInstrs_iff.mp hi) (mem_encodableInstrs_iff.mp hj)
  · rw [List.length_map, length_encodableInstrs]
  · simp only [List.mem_map, mem_encodableInstrs_iff, decode_eq_ok_iff_encode]

/-! ### Illegal words (R106, R107) -/

theorem opcOf_le (i : Instr) : (opcOf i).toNat ≤ 7 := by
  cases i <;> simp [opcOf]

/-- The opcodes NOP, NEWB and INIT take no operand (R104). -/
theorem argOf_eq_zero {i : Instr} (h : opcOf i = 0x00#8 ∨ opcOf i = 0x01#8 ∨ opcOf i = 0x04#8) :
    argOf i = 0 := by
  cases i with
  | nop | newb | init => rfl
  | wr | rd | prop | run | rdcsr => simp [opcOf] at h

/-- A word is Illegal when one of R106's three checks fails. -/
theorem decode_eq_error_of_fields {w : Word32}
    (h : mbzField w ≠ 0#16 ∨ 7 < (opcField w).toNat ∨
      ((opcField w = 0x00#8 ∨ opcField w = 0x01#8 ∨ opcField w = 0x04#8) ∧ argField w ≠ 0#8)) :
    ∃ x, decode w = .error x := by
  cases hd : decode w with
  | error x => exact ⟨x, rfl⟩
  | ok i =>
    obtain ⟨hm, ho, ha⟩ := decode_eq_ok_cases hd
    rw [ho] at h
    rcases h with hmbz | hopc | ⟨hnone, harg⟩
    · exact absurd hm hmbz
    · exact absurd (opcOf_le i) (Nat.not_le.mpr hopc)
    · rw [argOf_eq_zero hnone] at ha
      exact absurd (BitVec.eq_of_toNat_eq ha) harg

end Sys2Proof

namespace Sys2Proof.Machine

variable {c : Cfg}

/-- The fourth clause of `step`, in a block that is not faulted (R107, R206). -/
theorem step_of_decode_eq_error {s : State} {cmd : Word32} {wdata : BusWord s.cfg}
    {rest : List (HostEvent s.cfg)} {x : IllegalWord}
    (hp : s.pending = .command cmd wdata :: rest) (he : s.engine.err = false)
    (hd : decode cmd = .error x) :
    step s = .next ((s.accept cmd wdata rest).faultedBy .illegal) := by
  have hill : step s = execIllegal (s.accept cmd wdata rest) := by
    unfold step
    rw [hp]
    simp only [hd]
  rw [hill, execIllegal, illegalReply_eq (e := (s.accept cmd wdata rest).engine) he]
  rfl

/-- Settles O7: such a word does not decode, and the step is then the fault entry. -/
theorem illegalWordFaults : Obligations.IllegalWordFaults := by
  intro s cmd wdata rest hp he hbad
  obtain ⟨x, hx⟩ := decode_eq_error_of_fields hbad
  exact step_of_decode_eq_error hp he hx

/-- Settles O10: each of the four things a step can do leaves a state of the same configuration. -/
theorem stepAlwaysCompletes : Obligations.StepAlwaysCompletes := by
  intro s
  rcases step_cases s with
    ⟨_, hs⟩ | ⟨_, _, hs⟩ | ⟨_, _, _, _, _, _, hs⟩ | ⟨_, _, _, _, _, _, hs⟩
  · exact ⟨_, hs, rfl⟩
  · exact ⟨_, hs, rfl⟩
  · exact ⟨_, hs, rfl⟩
  · exact ⟨_, hs, rfl⟩

/-! ### The response (R101) and the data word (R102) -/

/-- Settles O22: a dropped command and a fault entry return FAULT and zeros and leave ERR = 1; a
status read returns OK, and a command that completes leaves ERR = 0. -/
theorem responseTellsCompletion : Obligations.ResponseTellsCompletion := by
  intro i s t ht
  rw [exec_eq] at ht
  cases ht
  refine ⟨_, answer_response .., ?_⟩
  rw [answer_engine]
  rcases commandReply_cases i s.cmd s.wdata s.engine with
    ⟨he, hcsr, hr⟩ | ⟨n, _, rfl, hn, _, hr⟩ | ⟨_, hcsr, _, hr⟩ | ⟨_, _, e', d, hr, he', hd, _⟩
  · rw [hr]
    exact ⟨iff_of_true rfl ⟨he, hcsr⟩, fun _ => rfl, fun _ _ => rfl⟩
  · rw [hr]
    exact ⟨iff_of_false nofun fun ⟨_, hne⟩ => hne n hn rfl, nofun, fun _ hne => absurd rfl (hne n)⟩
  · rw [hr]
    exact ⟨iff_of_true rfl ⟨raise_err .., hcsr⟩, fun _ => rfl, fun _ _ => rfl⟩
  · rw [hr]
    exact ⟨iff_of_false nofun fun ⟨herr, _⟩ => (nomatch he'.symm.trans herr), nofun,
      fun hrd _ => hd hrd⟩

/-- Only WR's transaction has the data word (R102). -/
theorem commandReply_wdata {i : Instr} (h : ∀ a, i ≠ .wr a) (cmd : Word32) (d d' : BusWord c)
    (e : Engine c) : commandReply i cmd d e = commandReply i cmd d' e := by
  cases i with
  | wr a => exact absurd rfl (h a)
  | _ => rfl

/-- Settles O23: the command's transaction with one data word is the one with every other. -/
theorem wdataIsUsedByWrOnly : Obligations.WdataIsUsedByWrOnly := by
  intro i s hi
  refine ⟨(commandReply i s.cmd s.wdata s.engine).engine,
    (commandReply i s.cmd s.wdata s.engine).response, fun d => ?_⟩
  rw [exec_eq, commandReply_wdata hi _ d s.wdata]
  rfl

/-! ### The pseudo-instructions (R109) -/

/-- LOADG writes word i by its i-th command. -/
theorem loadGrid_getElem? (ws : Vector (BusWord c) 81) (i : Fin 81) :
    (loadGrid ws)[i.val]? = some { instr := .wr i.val, wdata := ws[i] } := by
  simp [loadGrid, writeCells]

/-- Settles O52: seven expansions are the definition's own, LOADG's is read command by command. -/
theorem pseudoInstructionsExpand : Obligations.PseudoInstructionsExpand := fun _ =>
  ⟨rfl, fun _ => rfl, fun _ => rfl, fun _ => rfl, fun _ => rfl, rfl, rfl, fun ws =>
    ⟨(length_writeCells _ ws).trans List.length_finRange, loadGrid_getElem? ws⟩⟩

end Sys2Proof.Machine

/-!
PROOFS. The grid access commands (spec/40_grid_access.md): NEWB (R130), WR (R133) with its data
check (R134), and RD (R137).
-/

namespace Sys2Proof.Machine

variable {c : Cfg}

/-! ### The word of a command with an operand -/

/-- A number below 256 fills ARG alone (R104). -/
theorem ofNat_eq_append_arg {a : Nat} (ha : a < 256) :
    BitVec.ofNat 32 a = 0#8 ++ 0#16 ++ BitVec.ofNat 8 a := by
  apply BitVec.eq_of_toNat_eq
  have ha32 : a < 2 ^ 32 := by omega
  rw [BitVec.toNat_ofNat, Nat.mod_eq_of_lt ha32, BitVec.toNat_append, BitVec.toNat_append]
  simp [Nat.mod_eq_of_lt ha]

/-- A command with an operand is the `match` of its row with the operand in ARG (R103, R105). -/
theorem encode_eq_match_or {i : Instr} {m : Word32} (o : BitVec 8) (ho : opcOf i = o)
    (hm : o ++ 0#16 ++ 0#8 = m) (hi : argOf i < 256) :
    encode i = m ||| BitVec.ofNat 32 (argOf i) := by
  rw [← hm, ← ho, ofNat_eq_append_arg hi, BitVec.or_append, BitVec.or_append]
  simp [encode]

/-! ### From a command's transaction to the state it leaves -/

section exec
variable {s : State} {i : Instr}

theorem exec_of_complete {e : Engine s.cfg} {d : BusWord s.cfg}
    (h : commandReply i s.cmd s.wdata s.engine = complete e d) :
    exec i s = .next (s.completed e d) := by
  rw [exec_eq, h]
  rfl

theorem exec_of_raise {x : Cause}
    (h : commandReply i s.cmd s.wdata s.engine = raise x s.cmd s.engine) :
    exec i s = .next (s.faultedBy x) := by
  rw [exec_eq, h]
  rfl

theorem exec_of_drop (h : commandReply i s.cmd s.wdata s.engine = drop s.engine) :
    exec i s = .next s.dropped := by
  rw [exec_eq, h]
  rfl

end exec

/-! ### The grid words: what is valid, and what an address names -/

section validity
variable {e : Engine c}

theorem memRead_cell_of_not_cv {i : Fin 81} (h : e.cv i = false) : memRead e (.cell i) = none :=
  Option.isNone_iff_eq_none.mp (Option.isSome_eq_false_iff.mp h)

theorem memRead_acc_of_accs {a : Accs c} (h : e.accs = some a) (u : GridUnit) :
    memRead e (.acc u) = some (a.get u) := by
  rw [memRead, h, Option.map_some]

theorem memRead_acc_of_not_av (h : e.av = false) (u : GridUnit) : memRead e (.acc u) = none := by
  have hnone : e.accs = none := Option.isNone_iff_eq_none.mp (Option.isSome_eq_false_iff.mp h)
  rw [memRead, hnone, Option.map_none]

end validity

/-- Addresses 81..107 name accumulators (R74). -/
theorem gridWord_acc {a : Nat} (h1 : 81 ≤ a) (h2 : a ≤ 107) : ∃ u, gridWord a = some (.acc u) := by
  cases hg : gridWord a with
  | none =>
    have := gridWord_eq_none_iff.mp hg
    omega
  | some g =>
    cases g with
    | cell i =>
      have := gridWord_eq_cell_iff.mp hg
      omega
    | acc u => exact ⟨u, rfl⟩

/-! ### NEWB -/

/-- Settles O12: the block NEWB leaves has no word at all. -/
theorem newbInvalidatesGrid : Obligations.NewbInvalidatesGrid := by
  refine ⟨by decide, fun s => ⟨fun he => ?_, fun he => ?_⟩⟩
  · exact ⟨invalidateAll s.engine, exec_of_complete (newbReply_eq he), invalidateAll_cv _,
      invalidateAll_av _, memRead_invalidateAll _, invalidateAll_fault _⟩
  · exact exec_of_drop (requireNotErr_of_err he _)

/-! ### WR -/

section wr
variable {e : Engine c} (he : e.err = false) {cmd : Word32} {w : BusWord c}
include he

theorem wrReply_of_wellFormed (i : Fin 81) (hw : wellFormedData w = true) :
    wrReply i.val cmd w e = complete (memWrite e i (fromBus w)) 0 := by
  rcases wrReply_cases he i.val cmd w with ⟨ha, _⟩ | ⟨ha, _, _⟩ | ⟨_, _, hbad, _⟩ | ⟨k, hk, _, h⟩
  · omega
  · omega
  · cases hw.symm.trans hbad
  · cases Fin.ext hk
    exact h

theorem wrReply_of_not_wellFormed {a : Nat} (ha : a ≤ 80) (hw : wellFormedData w = false) :
    wrReply a cmd w e = raise .badData cmd e := by
  rcases wrReply_cases he a cmd w with ⟨hbig, _⟩ | ⟨hacc, _, _⟩ | ⟨_, _, _, h⟩ | ⟨_, _, hgood, _⟩
  · omega
  · omega
  · exact h
  · cases hw.symm.trans hgood

theorem wrReply_of_acc {a : Nat} (h1 : 81 ≤ a) (h2 : a ≤ 107) :
    wrReply a cmd w e = raise .roWrite cmd e := by
  rcases wrReply_cases he a cmd w with ⟨hbig, _⟩ | ⟨_, _, h⟩ | ⟨_, hi, _, _⟩ | ⟨_, hi, _, _⟩
  · omega
  · exact h
  · omega
  · omega

theorem wrReply_of_badAddr {a : Nat} (ha : 107 < a) :
    wrReply a cmd w e = raise .badAddr cmd e := by
  rcases wrReply_cases he a cmd w with ⟨_, h⟩ | ⟨_, hacc, _⟩ | ⟨_, hi, _, _⟩ | ⟨_, hi, _, _⟩
  · exact h
  · omega
  · omega
  · omega

end wr

/-- Settles O13: a WR that completes leaves the block `memWrite` writes, and the other addresses and
data each raise their fault. -/
theorem wrStoresCell : Obligations.WrStoresCell := by
  refine ⟨fun a ha => encode_eq_match_or (i := .wr a) 0x02#8 rfl (by decide) ha, fun s =>
    ⟨fun he => ?_, fun he a => exec_of_drop (requireNotErr_of_err he _)⟩⟩
  refine ⟨fun i hw => ?_, fun a ha hw => ?_, fun a h1 h2 => ?_, fun a ha => ?_⟩
  · exact ⟨memWrite s.engine i (fromBus s.wdata), exec_of_complete (wrReply_of_wellFormed he i hw),
      memRead_memWrite_self .., by simp, fun k hk => memRead_memWrite_cell_ne _ _ hk,
      memWrite_av .., memWrite_fault ..⟩
  · exact exec_of_raise (wrReply_of_not_wellFormed he ha hw)
  · exact exec_of_raise (wrReply_of_acc he h1 h2)
  · exact exec_of_raise (wrReply_of_badAddr he ha)

/-! ### RD -/

section rd
variable {e : Engine c} (he : e.err = false) {cmd : Word32} {a : Nat}
include he

theorem rdReply_of_memRead {g : GridWord} {w : LaneWord c} (hg : gridWord a = some g)
    (hw : memRead e g = some w) : rdReply a cmd e = complete e (toBus w) := by
  rcases rdReply_cases he a cmd with ⟨hbig, _⟩ | ⟨g', hg', hnone, _⟩ | ⟨g', w', hg', hw', h⟩
  · cases hg.symm.trans (gridWord_eq_none_iff.mpr hbig)
  · cases hg.symm.trans hg'
    cases hw.symm.trans hnone
  · cases hg.symm.trans hg'
    cases hw.symm.trans hw'
    exact h

theorem rdReply_of_invalid {g : GridWord} (hg : gridWord a = some g) (hnone : memRead e g = none) :
    rdReply a cmd e = raise .uninit cmd e := by
  rcases rdReply_cases he a cmd with ⟨hbig, _⟩ | ⟨_, _, _, h⟩ | ⟨g', w, hg', hw, _⟩
  · cases hg.symm.trans (gridWord_eq_none_iff.mpr hbig)
  · exact h
  · cases hg.symm.trans hg'
    cases hnone.symm.trans hw

theorem rdReply_of_badAddr (ha : 107 < a) : rdReply a cmd e = raise .badAddr cmd e := by
  have hnone : gridWord a = none := gridWord_eq_none_iff.mpr ha
  rcases rdReply_cases he a cmd with ⟨_, h⟩ | ⟨_, hg, _⟩ | ⟨_, _, hg, _⟩
  · exact h
  · cases hnone.symm.trans hg
  · cases hnone.symm.trans hg

/-- RD at the address of an accumulator (R74, R137). -/
theorem rdReply_of_accs {accs : Accs c} (h : e.accs = some accs) (u : GridUnit) :
    rdReply (gridAddress (.acc u)) cmd e = complete e (toBus (accs.get u)) :=
  rdReply_of_memRead he (gridWord_gridAddress (.acc u)) (memRead_acc_of_accs h u)

end rd

/-- Settles O14: the address names a grid word, and RD returns it or, while it is invalid, raises
UNINIT. -/
theorem rdReturnsWord : Obligations.RdReturnsWord := by
  refine ⟨fun a ha => encode_eq_match_or (i := .rd a) 0x03#8 rfl (by decide) ha, fun s =>
    ⟨fun he => ?_, fun he a => exec_of_drop (requireNotErr_of_err he _)⟩⟩
  refine ⟨fun i w hw => ?_, fun a u ha => ⟨?_, ?_, ?_⟩, fun i hcv => ?_, fun hav a h1 h2 => ?_,
    fun a ha => ?_⟩
  · exact exec_of_complete (rdReply_of_memRead he (gridWord_gridAddress (.cell i)) hw)
  · exact exec_of_complete (rdReply_of_accs he ha ⟨.row, u⟩)
  · exact exec_of_complete (rdReply_of_accs he ha ⟨.col, u⟩)
  · exact exec_of_complete (rdReply_of_accs he ha ⟨.box, u⟩)
  · exact exec_of_raise
      (rdReply_of_invalid he (gridWord_gridAddress (.cell i)) (memRead_cell_of_not_cv hcv))
  · obtain ⟨u, hu⟩ := gridWord_acc h1 h2
    exact exec_of_raise (rdReply_of_invalid he hu (memRead_acc_of_not_av hav u))
  · exact exec_of_raise (rdReply_of_badAddr he ha)

/-! ### The data check of WR -/

/-- `a &~ b` is zero exactly when a has no bit that b lacks (R10). -/
theorem andNot_eq_zero_iff {n : Nat} {a b : BitVec n} :
    andNot a b = 0 ↔ ∀ i, b.getLsbD i = false → a.getLsbD i = false := by
  constructor
  · intro h i hb
    have hi : (andNot a b).getLsbD i = false := by rw [h]; exact BitVec.getLsbD_zero
    simpa [getLsbD_andNot, hb] using hi
  · intro h
    apply BitVec.eq_of_getLsbD_eq
    intro i _
    rw [getLsbD_andNot]
    cases hb : b.getLsbD i with
    | false => rw [h i hb, Bool.false_and, BitVec.ofNat_eq_ofNat, BitVec.getLsbD_zero]
    | true => rw [Bool.not_true, Bool.and_false, BitVec.ofNat_eq_ofNat, BitVec.getLsbD_zero]

theorem not_inLane_iff {b : Nat} :
    ¬ InLane c b ↔ ∀ (j : Fin c.lanes) (k : Fin 9), b ≠ c.stride * j.val + k.val := by
  refine ⟨fun h j k hb => h ⟨j, ?_⟩, not_inLane_of_ne⟩
  rw [laneBase]
  omega

/-- Part (a) of the check (R134): no bit of the bus outside the lanes' fields. -/
theorem andNot_toBus_onesWord_eq_zero_iff {d : BusWord c} :
    andNot d (toBus (onesWord c)) = 0 ↔
      ∀ b, (∀ (j : Fin c.lanes) (k : Fin 9), b ≠ c.stride * j.val + k.val) →
        d.getLsbD b = false := by
  simp only [andNot_eq_zero_iff, getLsbD_toBus, getLsbD_onesWord, decide_eq_false_iff_not,
    not_inLane_iff]

/-- The lanes of a word lie at the same place on the bus (R70, R72). -/
theorem lane_fromBus (d : BusWord c) (j : Fin c.lanes) :
    lane (fromBus d) j = d.extractLsb' (c.stride * j.val) 9 := by
  apply BitVec.eq_of_getLsbD_eq
  intro k hk
  have hbase := laneBase_add_le j
  have hb : laneBase c j + k < c.wordBits := by omega
  rw [getLsbD_lane, getLsbD_fromBus, BitVec.getLsbD_extractLsb', decide_eq_true hb, Bool.true_and,
    laneBase]

/-- Part (b) of the check (R134): a lane is 0 or has exactly one bit. -/
theorem blankOrOneHot_iff_digit {v : Mask} :
    blankOrOneHot v = true ↔ v = 0#9 ∨ ∃ k : Fin 9, v = 1#9 <<< k.val := by
  rw [blankOrOneHot_iff, onehot9_iff]
  rfl

/-- Settles O29: the two parts of the check bit by bit and lane by lane, and WR's clause for data
that fails it. -/
theorem wellFormedDataMeaning : Obligations.WellFormedDataMeaning := by
  refine ⟨fun c d => ?_, fun s i he hw => ?_⟩
  · simp only [wellFormedData, Bool.and_eq_true, decide_eq_true_eq, List.all_eq_true,
      List.mem_finRange, true_implies, andNot_toBus_onesWord_eq_zero_iff, lane_fromBus,
      blankOrOneHot_iff_digit]
  · exact exec_of_raise (wrReply_of_not_wellFormed he (Nat.le_of_lt_succ i.isLt) hw)

end Sys2Proof.Machine

/-!
PROOFS. The initialisation of the accumulators (spec/41_accumulator_init.md): INIT (R150) and what
each accumulator holds after it (R152).
-/

namespace Sys2Proof.Machine

variable {c : Cfg}

/-! ### INIT -/

section init
variable {e : Engine c} (he : e.err = false) {cmd : Word32}
include he

theorem initReply_of_words {ws : Vector (LaneWord c) 81} (hw : e.words = some ws) :
    initReply cmd e = complete { e with accs := some (initAccs ws) } 0 := by
  rcases initReply_cases he cmd with ⟨hnone, _⟩ | ⟨ws', hw', h⟩
  · cases hw.symm.trans hnone
  · cases hw.symm.trans hw'
    exact h

theorem initReply_of_not_cv {i : Fin 81} (hcv : e.cv i = false) :
    initReply cmd e = raise .uninit cmd e := by
  have hnone : e.words = none := words_eq_none_iff.mpr ⟨i, memRead_cell_of_not_cv hcv⟩
  rcases initReply_cases he cmd with ⟨_, h⟩ | ⟨_, hw, _⟩
  · exact h
  · cases hnone.symm.trans hw

end init

/-- Settles O15: with every cell valid INIT leaves `initAccs` of the cells' words, whose bits and pad
bits the laws of INIT give; an invalid cell leaves no words to read. -/
theorem initBuildsAccumulators : Obligations.InitBuildsAccumulators := by
  refine ⟨by decide, fun s => ⟨fun he => ⟨fun ws hcells => ?_, fun i hcv => ?_⟩, fun he => ?_⟩⟩
  · have hw : s.engine.words = some ws := words_eq_some_iff.mpr hcells
    exact ⟨initAccs ws, exec_of_complete (initReply_of_words he hw), padBits_initAccs ws,
      lane_initAccs_bit ws⟩
  · exact exec_of_raise (initReply_of_not_cv he hcv)
  · exact exec_of_drop (requireNotErr_of_err he _)

end Sys2Proof.Machine

/-!
PROOFS. The propagation (spec/42_propagation.md): the cell step on four words (R160 to R163), PROP
(R164), RUN (R165, R166) and the silence of a contradiction (R179).
-/

namespace Sys2Proof.Machine

variable {c : Cfg}

/-! ### The order of the lanes (R163) -/

/-- The pad bits of the four words (R71). -/
def WordQuad.pads (q : WordQuad c) : WordQuad c where
  row := padBits q.row
  col := padBits q.col
  box := padBits q.box
  cell := padBits q.cell

/-- Four words are their lanes and their pad bits. -/
theorem wordQuad_ext {q q' : WordQuad c} (hl : ∀ j, q.lane j = q'.lane j)
    (hp : q.pads = q'.pads) : q = q' := by
  obtain ⟨row, col, box, cell⟩ := q
  obtain ⟨row', col', box', cell'⟩ := q'
  obtain ⟨hrow, hcol, hbox, hcell⟩ := WordQuad.mk.inj hp
  rw [WordQuad.mk.injEq]
  exact ⟨laneWord_ext (fun j => congrArg LaneQuad.row (hl j)) hrow,
    laneWord_ext (fun j => congrArg LaneQuad.col (hl j)) hcol,
    laneWord_ext (fun j => congrArg LaneQuad.box (hl j)) hbox,
    laneWord_ext (fun j => congrArg LaneQuad.cell (hl j)) hcell⟩

@[simp] theorem wordQuad_pads_stepLane (q : WordQuad c) (j : Fin c.lanes) :
    (q.stepLane j).pads = q.pads := by
  simp [WordQuad.pads, WordQuad.stepLane, WordQuad.setLane]

theorem wordQuad_pads_foldl (l : List (Fin c.lanes)) (q : WordQuad c) :
    (l.foldl WordQuad.stepLane q).pads = q.pads := by
  induction l generalizing q with
  | nil => rfl
  | cons j l ih => rw [List.foldl_cons, ih, wordQuad_pads_stepLane]

/-- Stepping every lane once is the cell step, whatever the order of the lanes (R163). -/
theorem wordQuad_foldl_of_perm {l : List (Fin c.lanes)} (hl : l.Perm (List.finRange c.lanes))
    (q : WordQuad c) : l.foldl WordQuad.stepLane q = q.step := by
  have hnodup : l.Nodup := hl.nodup_iff.mpr (List.nodup_finRange _)
  refine wordQuad_ext (fun j => ?_) ?_
  · have hj : j ∈ l := hl.mem_iff.mpr (List.mem_finRange j)
    rw [wordQuad_lane_foldl j l hnodup, if_pos hj, wordQuad_lane_step]
  · rw [WordQuad.step, wordQuad_pads_foldl, wordQuad_pads_foldl]

/-- Settles O39: an order of the lanes is a list that has each lane once. -/
theorem laneOrderDoesNotMatter : Obligations.LaneOrderDoesNotMatter := fun _ q =>
  ⟨wordQuad_lane_step q, fun _ hl => wordQuad_foldl_of_perm hl q⟩

/-! ### The four words of a cell after its step (R160, R162) -/

theorem step9_of_onehot {q : LaneQuad} (h : onehot9 (q.cand ||| q.cell) = true) :
    step9 q =
      { row := andNot q.row (q.cand ||| q.cell), col := andNot q.col (q.cand ||| q.cell),
        box := andNot q.box (q.cand ||| q.cell), cell := q.cand ||| q.cell } := by
  simp [step9, h]

theorem step9_of_not_onehot {q : LaneQuad} (h : onehot9 (q.cand ||| q.cell) = false) :
    step9 q = q := by
  simp [step9, h]

@[simp] theorem quad_setQuad (g : Grid c) (i : Fin 81) (q : WordQuad c) :
    (g.setQuad i q).quad i = q := by
  simp [Grid.quad, Grid.setQuad]

theorem lane_quad_cellStep (g : Grid c) (i : Fin 81) (j : Fin c.lanes) :
    ((cellStep g i).quad i).lane j = step9 ((g.quad i).lane j) := by
  rw [cellStep, quad_setQuad, wordQuad_lane_step]

theorem cellStep_cells_ne (g : Grid c) {i k : Fin 81} (h : k ≠ i) :
    (cellStep g i).cells[k] = g.cells[k] := by
  rw [cellStep, setQuad_cells, if_neg h]

theorem cellStep_get_of_not_has (g : Grid c) {i : Fin 81} {u : GridUnit} (h : ¬ u.has i) :
    (cellStep g i).accs.get u = g.accs.get u := by
  rw [cellStep, setQuad_get, if_neg h]

/-! ### The grid that PROP and RUN work on -/

theorem grid_of_accs_cells {e : Engine c} {g : Grid c} (ha : e.accs = some g.accs)
    (hc : ∀ k : Fin 81, e.cells[k] = some g.cells[k]) : e.grid = some g :=
  grid_eq_some_iff.mpr ⟨ha, words_eq_some_iff.mpr hc⟩

@[simp] theorem words_withGrid (e : Engine c) (g : Grid c) : (e.withGrid g).words = some g.cells :=
  words_eq_some_iff.mpr (withGrid_cells e g)

theorem grid_of_not_av {e : Engine c} (h : e.av = false) : e.grid = none :=
  grid_eq_none_iff.mpr (.inl h)

/-! ### PROP and RUN -/

section propRun
variable {e : Engine c} (he : e.err = false) {cmd : Word32}
include he

theorem propReply_of_grid {g : Grid c} (hg : e.grid = some g) (i : Fin 81) :
    propReply i.val cmd e = complete (e.withGrid (cellStep g i)) 0 := by
  rcases propReply_cases he i.val cmd with ⟨hbig, _⟩ | ⟨_, hnone, _⟩ | ⟨k, g', hk, hg', h⟩
  · omega
  · cases hg.symm.trans hnone
  · cases Fin.ext hk
    cases hg.symm.trans hg'
    exact h

theorem propReply_of_not_av {n : Nat} (hn : n ≤ 80) (hav : e.av = false) :
    propReply n cmd e = raise .uninit cmd e := by
  rcases propReply_cases he n cmd with ⟨hbig, _⟩ | ⟨_, _, h⟩ | ⟨_, _, _, hg, _⟩
  · omega
  · exact h
  · cases (grid_of_not_av hav).symm.trans hg

theorem propReply_of_badAddr {n : Nat} (hn : 80 < n) :
    propReply n cmd e = raise .badAddr cmd e := by
  rcases propReply_cases he n cmd with ⟨_, h⟩ | ⟨hsmall, _, _⟩ | ⟨i, _, hi, _, _⟩
  · exact h
  · omega
  · omega

theorem runReply_of_grid {g : Grid c} (hg : e.grid = some g) (r : Nat) :
    runReply r cmd e = complete (e.withGrid (rounds r g)) 0 := by
  rcases runReply_cases he r cmd with ⟨hnone, _⟩ | ⟨g', hg', h⟩
  · cases hg.symm.trans hnone
  · cases hg.symm.trans hg'
    exact h

theorem runReply_of_not_av (hav : e.av = false) (r : Nat) :
    runReply r cmd e = raise .uninit cmd e := by
  rcases runReply_cases he r cmd with ⟨_, h⟩ | ⟨_, hg, _⟩
  · exact h
  · cases (grid_of_not_av hav).symm.trans hg

end propRun

/-- Settles O16: with AV = 1 PROP leaves the grid of the cell step, whose four words are `step9`'s
in every lane and whose other words and pad bits are as before. -/
theorem propDoesOneCellStep : Obligations.PropDoesOneCellStep := by
  refine ⟨fun n hn => encode_eq_match_or (i := .prop n) 0x05#8 rfl (by decide) hn, fun s =>
    ⟨fun he => ⟨fun g i haccs hcells => ?_, fun hav n hn => ?_, fun n hn => ?_⟩, fun he n =>
      exec_of_drop (requireNotErr_of_err he _)⟩⟩
  · have hgrid : s.engine.grid = some g := grid_of_accs_cells haccs hcells
    obtain ⟨hcellPads, haccPads⟩ := cellStep_pads g i
    refine ⟨cellStep g i, exec_of_complete (propReply_of_grid he hgrid i), fun j => ?_,
      fun k hk => cellStep_cells_ne g hk, fun u hu => cellStep_get_of_not_has g hu, hcellPads,
      haccPads⟩
    have hstep := lane_quad_cellStep g i j
    constructor
    · intro hone
      obtain ⟨hrow, hcol, hbox, hcell⟩ := LaneQuad.mk.inj (hstep.trans (step9_of_onehot hone))
      exact ⟨hcell, hrow, hcol, hbox⟩
    · intro hnot
      obtain ⟨hrow, hcol, hbox, hcell⟩ := LaneQuad.mk.inj (hstep.trans (step9_of_not_onehot hnot))
      exact ⟨hcell, hrow, hcol, hbox⟩
  · exact exec_of_raise (propReply_of_not_av he hn hav)
  · exact exec_of_raise (propReply_of_badAddr he hn)

/-- Settles O17: r rounds are the sequence `roundCells` of cell steps, and RUN replaces the grid by
the one they leave. -/
theorem runDoesRounds : Obligations.RunDoesRounds := by
  refine ⟨fun r hr => encode_eq_match_or (i := .run r) 0x06#8 rfl (by decide) hr, fun s r =>
    ⟨fun he => ⟨fun g haccs hcells => ?_, fun hav => ?_⟩, fun he =>
      exec_of_drop (requireNotErr_of_err he _)⟩⟩
  · have hgrid : s.engine.grid = some g := grid_of_accs_cells haccs hcells
    exact ⟨rounds r g, rounds_eq_stepCells r g, exec_of_complete (runReply_of_grid he hgrid r)⟩
  · exact exec_of_raise (runReply_of_not_av he hav r)

/-! ### A contradiction (R179) -/

/-- The cell is unsolved and has no candidate left. -/
structure LaneGrid.Contradiction (q : LaneGrid) (i : Fin 81) : Prop where
  cell : q.cell i = 0#9
  cand : q.cand i = 0#9

theorem mask_and_and_comm (a b a' b' : Mask) :
    a &&& b &&& (a' &&& b') = a &&& a' &&& (b &&& b') := by
  rw [BitVec.and_assoc, ← BitVec.and_assoc b, BitVec.and_comm b, BitVec.and_assoc,
    ← BitVec.and_assoc a]

/-- A cell step only takes candidates away (R171). -/
theorem cand_of_below {a b : LaneGrid} (h : a.Below b) (i : Fin 81) :
    b.cand i &&& a.cand i = b.cand i := by
  obtain ⟨_, hacc⟩ := h
  rw [LaneGrid.cand, LaneGrid.cand, mask_and_and_comm,
    mask_and_and_comm (b.acc (unitOf .row i)), hacc, hacc, hacc]

/-- The step of the cell itself commits nothing, and another cell's step leaves it unsolved and
gives it no candidate. -/
theorem contradiction_step {q : LaneGrid} {i : Fin 81} (h : q.Contradiction i) (k : Fin 81) :
    (q.step k).Contradiction i := by
  by_cases hk : i = k
  · subst hk
    have hnone : onehot9 (q.cand i) = false := by rw [h.cand, onehot9_zero]
    rwa [laneStep_of_undecided h.cell hnone]
  · constructor
    · simp only [LaneGrid.step, if_neg hk, h.cell]
    · have hsub := cand_of_below (laneStep_below q k) i
      rwa [h.cand, BitVec.and_zero, eq_comm] at hsub

theorem contradiction_steps {i : Fin 81} (l : List (Fin 81)) {q : LaneGrid}
    (h : q.Contradiction i) : (l.foldl LaneGrid.step q).Contradiction i := by
  induction l generalizing q with
  | nil => exact h
  | cons k l ih => exact ih (contradiction_step h k)

theorem lane_stepCells_of_contradiction {g : Grid c} {i : Fin 81} {j : Fin c.lanes}
    (h : (g.laneGrid j).Contradiction i) (l : List (Fin 81)) :
    lane (stepCells l g).cells[i] j = 0#9 := by
  have hsteps := contradiction_steps l h
  rw [← laneGrid_stepCells] at hsteps
  exact hsteps.cell

theorem laneDone_of_unsolved {ws : Vector (LaneWord c) 81} {i : Fin 81} {j : Fin c.lanes}
    (h : lane ws[i] j = 0#9) : laneDone ws j = false := by
  have hone : onehot9 (lane ws[i] j) = false := by rw [h, onehot9_zero]
  rw [laneDone, List.all_eq_false]
  exact ⟨i, List.mem_finRange i, Bool.eq_false_iff.mp hone⟩

/-- LDONE while every cell is valid (R46). -/
theorem ldoneReg_of_words {e : Engine c} {ws : Vector (LaneWord c) 81} (h : e.words = some ws) :
    ldoneReg e = BitVec.ofFnLE fun j => laneDone ws j := by
  unfold ldoneReg
  rw [h]

/-- An unsolved cell keeps its lane's bit of LDONE at 0 (R46). -/
theorem ldoneReg_withGrid_of_unsolved (e : Engine c) {g : Grid c} {i : Fin 81} {j : Fin c.lanes}
    (h : lane g.cells[i] j = 0#9) : (ldoneReg (e.withGrid g)).getLsbD j.val = false := by
  rw [ldoneReg_of_words (words_withGrid e g), BitVec.getLsbD_ofFnLE, dif_pos j.isLt]
  exact laneDone_of_unsolved h

/-- Settles O49: the contradiction outlives every sequence of cell steps, and RUN's rounds are one,
so the block that RUN leaves still has the unsolved cell. -/
theorem contradictionIsSilent : Obligations.ContradictionIsSilent := by
  intro s g i j he hgrid hcell hcand
  have hzero := lane_stepCells_of_contradiction (g := g) (j := j) ⟨hcell, hcand⟩
  refine ⟨hzero, fun r => ⟨s.engine.withGrid (rounds r g),
    exec_of_complete (runReply_of_grid he hgrid r), he, ?_⟩⟩
  rw [rounds_eq_stepCells]
  exact ldoneReg_withGrid_of_unsolved s.engine (hzero (roundCells r))

end Sys2Proof.Machine

/-!
PROOFS. The system commands (spec/43_system.md): NOP (R190), and RDCSR (R191) with the values of the
status registers (R42 to R46).
-/

namespace Sys2Proof.Machine

variable {c : Cfg}

/-! ### NOP -/

/-- Settles O11: an unfaulted block answers OK and 0 and stays as it is. -/
theorem nopCompletes : Obligations.NopCompletes :=
  ⟨by decide, fun _ => ⟨fun he => exec_of_complete (nopReply_eq he),
    fun he => exec_of_drop (requireNotErr_of_err he _)⟩⟩

/-! ### The values of the status registers -/

/-- Fields side by side, as a number. -/
theorem toNat_append_eq_add {m n : Nat} (a : BitVec m) (b : BitVec n) :
    (a ++ b).toNat = a.toNat * 2 ^ n + b.toNat := by
  rw [BitVec.toNat_append, ← Nat.shiftLeft_add_eq_or_of_lt b.isLt, Nat.shiftLeft_eq]

section registers
variable (e : Engine c)

/-- CONFIG has LANES in its low byte and STRIDE in the next (R43). -/
theorem csrValue_config :
    csrValue .config e = BitVec.ofNat c.busBits (256 * c.stride + c.lanes) := by
  cases c <;> rfl

/-- STATUS is the number that its fields stand for (R44). -/
theorem toNat_statusReg :
    (statusReg e).toNat =
      e.err.toNat + 2 * e.av.toNat + 4 * e.call.toNat + 16 * e.cause.toNat := by
  simp only [statusReg, toNat_append_eq_add, BitVec.toNat_ofNat, BitVec.toNat_ofBool]
  omega

theorem csrValue_status :
    csrValue .status e = BitVec.ofNat c.busBits
      (e.err.toNat + 2 * e.av.toNat + 4 * e.call.toNat + 16 * e.cause.toNat) := by
  rw [← toNat_statusReg, BitVec.ofNat_toNat]
  rfl

/-- CALL as a computed bit (R35). -/
theorem call_eq_decide : e.call = decide (∀ i : Fin 81, e.cv i = true) := by
  rw [Bool.eq_iff_iff, call_iff, decide_eq_true_eq]

end registers

/-- FCMD without a fault (R45). -/
theorem csrValue_fcmd_of_none {e : Engine c} (h : e.fault = none) : csrValue .fcmd e = 0 := by
  rw [csrValue, fcmdReg, h]
  exact BitVec.setWidth_zero _ _

/-- FCMD once a fault is recorded (R45). -/
theorem csrValue_fcmd_of_some {e : Engine c} {f : FaultRecord} (h : e.fault = some f) :
    csrValue .fcmd e = f.fcmd.setWidth c.busBits := by
  rw [csrValue, fcmdReg, h]

theorem laneDone_iff {ws : Vector (LaneWord c) 81} {j : Fin c.lanes} :
    laneDone ws j = true ↔ ∀ i : Fin 81, onehot9 (lane ws[i] j) = true := by
  simp only [laneDone, List.all_eq_true, List.mem_finRange, true_implies]

/-- LDONE while some cell is invalid (R46). -/
theorem ldoneReg_of_invalid {e : Engine c} (h : e.words = none) : ldoneReg e = 0 := by
  unfold ldoneReg
  rw [h]

/-- Bit j of LDONE (R46). -/
theorem getLsbD_ldoneReg_iff {e : Engine c} {j : Fin c.lanes} :
    (ldoneReg e).getLsbD j.val = true ↔
      ∀ i : Fin 81, ∃ w, e.cells[i] = some w ∧ onehot9 (lane w j) = true := by
  cases hw : e.words with
  | none =>
    obtain ⟨i, hi⟩ := words_eq_none_iff.mp hw
    rw [ldoneReg_of_invalid hw]
    refine ⟨fun h => absurd h (by simp), fun h => ?_⟩
    obtain ⟨w, hsome, _⟩ := h i
    cases hi.symm.trans hsome
  | some ws =>
    rw [ldoneReg_of_words hw, BitVec.getLsbD_ofFnLE, dif_pos j.isLt]
    simp only [words_eq_some_iff.mp hw _, Option.some.injEq, exists_eq_left']
    exact laneDone_iff

theorem lanes_le_busBits (c : Cfg) : c.lanes ≤ c.busBits := by cases c <;> decide

theorem getLsbD_csrValue_ldone (e : Engine c) (j : Fin c.lanes) :
    (csrValue .ldone e).getLsbD j.val = (ldoneReg e).getLsbD j.val := by
  have hj : j.val < c.busBits := Nat.lt_of_lt_of_le j.isLt (lanes_le_busBits c)
  rw [csrValue, BitVec.getLsbD_setWidth, decide_eq_true hj, Bool.true_and]

/-- LDONE is zero-extended to the bus (R42, R46). -/
theorem getLsbD_csrValue_ldone_of_ge (e : Engine c) {b : Nat} (hb : c.lanes ≤ b) :
    (csrValue .ldone e).getLsbD b = false := by
  rw [csrValue, BitVec.getLsbD_setWidth, BitVec.getLsbD_of_ge _ _ hb, Bool.and_false]

/-! ### RDCSR -/

section rdcsr
variable {n : Nat} {s : State}

/-- A register is read in a faulted block too (R191). -/
theorem exec_rdcsr_of_csrOf {r : Csr} (hr : csrOf n = some r) :
    exec (.rdcsr n) s = .next (s.completed s.engine (csrValue r s.engine)) := by
  rcases rdcsrReply_cases n s.cmd s.engine with ⟨r', hr', h⟩ | ⟨hn, _⟩
  · cases hr.symm.trans hr'
    exact exec_of_complete h
  · cases hr.symm.trans (csrOf_eq_none_iff.mpr hn)

/-- No register has a number above 3 (R76). -/
theorem rdcsrReply_of_badAddr (hn : 3 < n) (cmd : Word32) (e : Engine c) :
    rdcsrReply n cmd e = requireNotErr e (raise .badAddr cmd e) := by
  rcases rdcsrReply_cases n cmd e with ⟨_, hr, _⟩ | ⟨_, h⟩
  · cases hr.symm.trans (csrOf_eq_none_iff.mpr hn)
  · exact h

end rdcsr

/-- Settles O18: each number in 0..3 names a register, whose value the lemmas above give; no number
above 3 does. -/
theorem rdcsrReadsRegisters : Obligations.RdcsrReadsRegisters := by
  refine ⟨fun n hn => encode_eq_match_or (i := .rdcsr n) 0x07#8 rfl (by decide) hn, fun s =>
    ⟨?config, ?status, ?fcmd, ?ldone, fun n hn => ⟨fun he => ?badAddr, fun he => ?dropped⟩⟩⟩
  case config =>
    rw [exec_rdcsr_of_csrOf rfl, csrValue_config]
    obtain ⟨cfg⟩ := s
    cases cfg <;> rfl
  case status =>
    rw [exec_rdcsr_of_csrOf rfl, csrValue_status, call_eq_decide, Engine.cause]
    rcases s.engine.fault with _ | ⟨cause, _⟩
    · rfl
    · cases cause <;> rfl
  case fcmd =>
    rw [exec_rdcsr_of_csrOf rfl]
    cases hf : s.engine.fault with
    | none => rw [csrValue_fcmd_of_none hf]
    | some f => rw [csrValue_fcmd_of_some hf]
  case ldone =>
    exact ⟨_, exec_rdcsr_of_csrOf rfl,
      fun j => by rw [getLsbD_csrValue_ldone, getLsbD_ldoneReg_iff],
      fun _ hb => getLsbD_csrValue_ldone_of_ge s.engine hb⟩
  case badAddr =>
    exact exec_of_raise ((rdcsrReply_of_badAddr hn _ _).trans (requireNotErr_of_not_err he _))
  case dropped =>
    exact exec_of_drop ((rdcsrReply_of_badAddr hn _ _).trans (requireNotErr_of_err he _))

end Sys2Proof.Machine

/-!
PROOFS. The exceptions (spec/60_exceptions.md): which word raises which fault (R202, R204), fault
entry (R206), the faulted state (R207) and the way out of it (R208).
-/

namespace Sys2Proof.Machine

variable {c : Cfg}

/-! ### The transaction of a command word -/

/-- What a command word does to the block: its command's transaction, or the one of a word that
decodes to Illegal (R100, R107). -/
def wordReply (cmd : Word32) (wdata : BusWord c) (e : Engine c) : Reply c :=
  match decode cmd with
  | .ok i => commandReply i cmd wdata e
  | .error _ => illegalReply cmd e

theorem wordReply_of_ok {cmd : Word32} {i : Instr} (hd : decode cmd = .ok i) (w : BusWord c)
    (e : Engine c) : wordReply cmd w e = commandReply i cmd w e := by
  simp only [wordReply, hd]

theorem wordReply_of_error {cmd : Word32} {x : IllegalWord} (hd : decode cmd = .error x)
    (w : BusWord c) (e : Engine c) : wordReply cmd w e = illegalReply cmd e := by
  simp only [wordReply, hd]

/-- A step waits, applies reset, or answers a transaction with its word's reply (R16, R100, R230). -/
theorem step_cases_by_event (s : State) :
    (s.pending = [] ∧ step s = .next s) ∨
    (∃ rest, s.pending = .reset :: rest ∧ step s = .next (applyReset s rest)) ∨
    (∃ cmd wdata rest, s.pending = .command cmd wdata :: rest ∧
      step s = .next ((s.accept cmd wdata rest).answer
        (wordReply (c := s.cfg) cmd wdata s.engine))) := by
  rcases step_cases s with
    hidle | hreset | ⟨cmd, wdata, rest, i, hp, hd, hs⟩ | ⟨cmd, wdata, rest, x, hp, hd, hs⟩
  · exact .inl hidle
  · exact .inr (.inl hreset)
  · exact .inr (.inr ⟨cmd, wdata, rest, hp, by rw [hs, wordReply_of_ok hd]⟩)
  · exact .inr (.inr ⟨cmd, wdata, rest, hp, by rw [hs, wordReply_of_error hd]⟩)

theorem step_of_command {s : State} {cmd : Word32} {wdata : BusWord s.cfg}
    {rest : List (HostEvent s.cfg)} (hp : s.pending = .command cmd wdata :: rest) :
    step s =
      .next ((s.accept cmd wdata rest).answer (wordReply (c := s.cfg) cmd wdata s.engine)) := by
  rcases step_cases_by_event s with ⟨h, _⟩ | ⟨_, h, _⟩ | ⟨_, _, _, h, hs⟩
  · cases hp.symm.trans h
  · cases hp.symm.trans h
  · cases hp.symm.trans h
    exact hs

/-! ### The faulted state (R207) -/

section faulted
variable {e : Engine c} (he : e.err = true)
include he

/-- A faulted block drops every command but a status read. -/
theorem commandReply_of_err {i : Instr} (hi : ∀ n, n ≤ 3 → i ≠ .rdcsr n) (cmd : Word32)
    (w : BusWord c) : commandReply i cmd w e = drop e := by
  rcases commandReply_cases i cmd w e with
    ⟨_, _, h⟩ | ⟨n, _, hcsr, hn, _⟩ | ⟨hok, _⟩ | ⟨hok, _⟩
  · exact h
  · exact absurd hcsr (hi n hn)
  · cases he.symm.trans hok
  · cases he.symm.trans hok

theorem illegalReply_of_err (cmd : Word32) : illegalReply cmd e = drop e :=
  requireNotErr_of_err he _

/-- No word changes a faulted block: a status read completes and the rest is dropped. -/
theorem wordReply_engine_of_err (cmd : Word32) (w : BusWord c) :
    (wordReply cmd w e).engine = e := by
  cases hd : decode cmd with
  | error x => rw [wordReply_of_error hd, illegalReply_of_err he, drop_engine]
  | ok i =>
    rw [wordReply_of_ok hd]
    rcases commandReply_cases i cmd w e with
      ⟨_, _, h⟩ | ⟨_, _, _, _, _, h⟩ | ⟨hok, _⟩ | ⟨hok, _⟩
    · rw [h, drop_engine]
    · rw [h, complete_engine]
    · cases he.symm.trans hok
    · cases he.symm.trans hok

end faulted

/-- Settles O20: only a status read gets past the check of ERR, and an Illegal word does not. -/
theorem faultedBlockDropsCommands : Obligations.FaultedBlockDropsCommands := by
  intro s he
  refine ⟨fun i hi => ?_, fun cmd wdata rest hp hbad => ?_, fun n r hr => exec_rdcsr_of_csrOf hr⟩
  · exact exec_of_drop (commandReply_of_err he hi ..)
  · cases hd : decode cmd with
    | ok i => exact absurd hd (hbad i)
    | error x =>
      rw [step_of_command hp, wordReply_of_error hd, illegalReply_of_err he]
      rfl

/-! ### The way out of the faulted state (R208) -/

/-- A transaction that leaves the block as it was changes the response alone. -/
theorem answer_of_engine_eq {s : State} {r : Reply s.cfg} (h : r.engine = s.engine) :
    s.answer r = { s with response := some r.response } := by
  rw [State.answer, h]

/-- Settles O21: in a faulted block no transaction changes the block, and the other step with an
event is reset. -/
theorem onlyResetLeavesFaultedState : Obligations.OnlyResetLeavesFaultedState := by
  intro s he
  refine ⟨fun hne => ?_, fun rest hp => ⟨step_of_reset hp, reset_err, memRead_reset⟩⟩
  rcases step_cases_by_event s with ⟨_, hs⟩ | ⟨rest, hp, _⟩ | ⟨cmd, wdata, rest, _, hs⟩
  · exact ⟨s.cmd, s.wdata, s.response, s.pending, hs⟩
  · exact absurd hp (hne rest)
  · have hkeep : (wordReply cmd wdata s.engine).engine = s.engine := wordReply_engine_of_err he ..
    refine ⟨cmd, wdata, some (wordReply cmd wdata s.engine).response, rest, ?_⟩
    rw [hs, answer_of_engine_eq (s := s.accept cmd wdata rest) hkeep]
    rfl

/-! ### Fault entry (R206) -/

theorem raise_inj {x y : Cause} {cmd : Word32} {e : Engine c} :
    raise x cmd e = raise y cmd e ↔ x = y := by
  refine ⟨fun h => ?_, fun h => by rw [h]⟩
  have hfault := congrArg (fun r => r.engine.fault) h
  simpa using hfault

theorem complete_ne_raise {x : Cause} {cmd : Word32} {e e' : Engine c} {d : BusWord c} :
    complete e' d ≠ raise x cmd e :=
  fun h => nomatch congrArg (fun r => r.response.resp) h

/-- What a transaction does can be read off the state it leaves. -/
theorem answer_inj {s : State} {r r' : Reply s.cfg} : s.answer r = s.answer r' ↔ r = r' := by
  refine ⟨fun h => ?_, fun h => by rw [h]⟩
  obtain ⟨e, x⟩ := r
  obtain ⟨e', x'⟩ := r'
  simpa [State.answer] using h

theorem faultedBy_eq_answer (s : State) (x : Cause) :
    s.faultedBy x = s.answer (raise x s.cmd s.engine) := rfl

/-- A step is a fault entry exactly when the word's transaction is. -/
theorem step_eq_faultedBy_iff {s : State} {cmd : Word32} {wdata : BusWord s.cfg}
    {rest : List (HostEvent s.cfg)} {x : Cause} (hp : s.pending = .command cmd wdata :: rest) :
    step s = .next ((s.accept cmd wdata rest).faultedBy x) ↔
      wordReply (c := s.cfg) cmd wdata s.engine = raise x cmd s.engine := by
  rw [step_of_command hp, Host.Outcome.next.injEq, faultedBy_eq_answer]
  exact answer_inj (s := s.accept cmd wdata rest)

/-! ### Which command raises which fault (R202, R204) -/

/-- An address names an invalid word when it is that of an invalid cell, or that of an accumulator
while AV = 0 (R205). -/
theorem exists_invalid_word_iff {e : Engine c} {a : Nat} :
    (∃ g, gridWord a = some g ∧ memRead e g = none) ↔
      (∃ i : Fin 81, a = i.val ∧ e.cv i = false) ∨ (81 ≤ a ∧ a ≤ 107 ∧ e.av = false) := by
  constructor
  · rintro ⟨g, hg, hnone⟩
    cases g with
    | cell i =>
      exact .inl ⟨i, gridWord_eq_cell_iff.mp hg, Option.isSome_eq_false_iff.mpr
        (Option.isNone_iff_eq_none.mpr hnone)⟩
    | acc u =>
      obtain ⟨h1, h2⟩ := gridWord_eq_acc hg
      have haccs : e.accs = none := Option.map_eq_none_iff.mp hnone
      exact .inr ⟨h1, h2, by rw [Engine.av, haccs, Option.isSome_none]⟩
  · rintro (⟨i, ha, hcv⟩ | ⟨h1, h2, hav⟩)
    · exact ⟨.cell i, gridWord_eq_cell_iff.mpr ha, memRead_cell_of_not_cv hcv⟩
    · obtain ⟨u, hu⟩ := gridWord_acc h1 h2
      exact ⟨.acc u, hu, memRead_acc_of_not_av hav u⟩

/-- INIT has no words to read when some cell is invalid (R205). -/
theorem words_eq_none_iff_cv {e : Engine c} : e.words = none ↔ ∃ i : Fin 81, e.cv i = false := by
  simp [words_eq_none_iff, Engine.cv]

/-- AV alone says whether a legal block has a grid for PROP and RUN (R38). -/
theorem grid_eq_none_iff_av {e : Engine c} (hl : e.Legal) : e.grid = none ↔ e.av = false := by
  rw [grid_eq_none_iff]
  refine ⟨fun h => ?_, .inl⟩
  rcases h with hav | hcall
  · exact hav
  · exact Bool.eq_false_iff.mpr fun hav => Bool.eq_false_iff.mp hcall (hl.callOfAv hav)

section raises
variable {e : Engine c} (he : e.err = false) {cmd : Word32} {x : Cause}
include he

theorem illegalReply_eq_raise_iff : illegalReply cmd e = raise x cmd e ↔ x = .illegal := by
  rw [illegalReply_eq he, raise_inj, eq_comm]

theorem nopReply_ne_raise : nopReply e ≠ raise x cmd e := by
  rw [nopReply_eq he]
  exact complete_ne_raise

theorem newbReply_ne_raise : newbReply e ≠ raise x cmd e := by
  rw [newbReply_eq he]
  exact complete_ne_raise

theorem wrReply_eq_raise_iff {a : Nat} {w : BusWord c} :
    wrReply a cmd w e = raise x cmd e ↔
      (x = .badAddr ∧ 107 < a) ∨ (x = .roWrite ∧ 81 ≤ a ∧ a ≤ 107) ∨
        (x = .badData ∧ a ≤ 80 ∧ wellFormedData w = false) := by
  rcases wrReply_cases he a cmd w with
    ⟨ha, h⟩ | ⟨h1, h2, h⟩ | ⟨i, rfl, hw, h⟩ | ⟨i, rfl, hw, h⟩
  · grind [raise_inj]
  · grind [raise_inj]
  · grind [raise_inj]
  · grind [complete_ne_raise]

theorem rdReply_eq_raise_iff {a : Nat} :
    rdReply a cmd e = raise x cmd e ↔
      (x = .badAddr ∧ 107 < a) ∨
        (x = .uninit ∧ ∃ g, gridWord a = some g ∧ memRead e g = none) := by
  rw [← gridWord_eq_none_iff]
  rcases rdReply_cases he a cmd with ⟨ha, h⟩ | ⟨g, hg, hm, h⟩ | ⟨g, w, hg, hm, h⟩
  · simp [h, raise_inj, gridWord_eq_none_iff.mpr ha, eq_comm]
  · simp [h, raise_inj, hg, hm, eq_comm]
  · simp [h, complete_ne_raise, hg, hm]

theorem initReply_eq_raise_iff :
    initReply cmd e = raise x cmd e ↔ x = .uninit ∧ e.words = none := by
  rcases initReply_cases he cmd with ⟨hw, h⟩ | ⟨ws, hw, h⟩
  · simp [h, raise_inj, hw, eq_comm]
  · simp [h, complete_ne_raise, hw]

theorem propReply_eq_raise_iff {n : Nat} :
    propReply n cmd e = raise x cmd e ↔
      (x = .badAddr ∧ 80 < n) ∨ (x = .uninit ∧ n ≤ 80 ∧ e.grid = none) := by
  rcases propReply_cases he n cmd with ⟨hn, h⟩ | ⟨hn, hg, h⟩ | ⟨i, g, rfl, hg, h⟩
  · simp [h, raise_inj, hn, Nat.not_le.mpr hn, eq_comm]
  · simp [h, raise_inj, hn, Nat.not_lt.mpr hn, hg, eq_comm]
  · simp [h, complete_ne_raise, hg, Nat.le_of_lt_succ i.isLt]

theorem runReply_eq_raise_iff {r : Nat} :
    runReply r cmd e = raise x cmd e ↔ x = .uninit ∧ e.grid = none := by
  rcases runReply_cases he r cmd with ⟨hg, h⟩ | ⟨g, hg, h⟩
  · simp [h, raise_inj, hg, eq_comm]
  · simp [h, complete_ne_raise, hg]

theorem rdcsrReply_eq_raise_iff {n : Nat} :
    rdcsrReply n cmd e = raise x cmd e ↔ x = .badAddr ∧ 3 < n := by
  rw [← csrOf_eq_none_iff]
  rcases rdcsrReply_cases n cmd e with ⟨r, hr, h⟩ | ⟨hn, h⟩
  · simp [h, complete_ne_raise, hr]
  · simp [h, requireNotErr_of_not_err he, raise_inj, csrOf_eq_none_iff.mpr hn, eq_comm]

/-- A word that leaves ERR = 1 has done the fault entry (R206). -/
theorem wordReply_eq_raise_of_err {w : BusWord c} (h : (wordReply cmd w e).engine.err = true) :
    ∃ x, wordReply cmd w e = raise x cmd e := by
  cases hd : decode cmd with
  | error y => exact ⟨.illegal, (wordReply_of_error hd w e).trans (illegalReply_eq he cmd)⟩
  | ok i =>
    rw [wordReply_of_ok hd] at h ⊢
    rcases commandReply_cases i cmd w e with
      ⟨herr, _⟩ | ⟨_, _, _, _, _, hr⟩ | ⟨_, _, hraise⟩ | ⟨_, _, e', d, hr, hok, _⟩
    · cases he.symm.trans herr
    · rw [hr, complete_engine] at h
      cases he.symm.trans h
    · exact hraise
    · rw [hr, complete_engine] at h
      cases hok.symm.trans h

end raises

/-- Settles O19: a step is a fault entry exactly when its word's transaction is, and each command's
transaction is one exactly under the conditions of its row of the table. -/
theorem faultsAreExactlyAsListed : Obligations.FaultsAreExactlyAsListed := by
  intro s cmd wdata rest hl he hp
  refine ⟨fun x => (step_eq_faultedBy_iff hp).trans ?_, fun t ht herr => ?_⟩
  · cases hd : decode cmd with
    | error y =>
      rw [wordReply_of_error hd, illegalReply_eq_raise_iff he]
      cases x <;> simp
    | ok i =>
      rw [wordReply_of_ok hd]
      cases i with
      | nop => simp only [commandReply, nopReply_ne_raise he]
      | newb => simp only [commandReply, newbReply_ne_raise he]
      | wr a =>
        simp only [commandReply, wrReply_eq_raise_iff he]
        cases x <;> simp
      | rd a =>
        simp only [commandReply, rdReply_eq_raise_iff he, exists_invalid_word_iff]
        cases x <;> simp
      | init =>
        simp only [commandReply, initReply_eq_raise_iff he, words_eq_none_iff_cv]
        cases x <;> simp
      | prop n =>
        simp only [commandReply, propReply_eq_raise_iff he, grid_eq_none_iff_av hl]
        cases x <;> simp
      | run r =>
        simp only [commandReply, runReply_eq_raise_iff he, grid_eq_none_iff_av hl]
        cases x <;> simp
      | rdcsr n =>
        simp only [commandReply, rdcsrReply_eq_raise_iff he]
        cases x <;> simp
  · rw [step_of_command hp] at ht
    cases ht
    obtain ⟨x, hx⟩ := wordReply_eq_raise_of_err he herr
    exact ⟨x, congrArg (s.accept cmd wdata rest).answer hx⟩

end Sys2Proof.Machine

/-!
PROOFS. The laws of elimination (spec/42_propagation.md section 4), for one lane of a legal grid:
what a cell step can do there, said once, and the invariants that follow along any sequence of cell
steps (R161, R170 to R178).
-/

namespace Sys2Proof.Machine

variable {c : Cfg}

/-! ### Everything a cell step can do in a legal lane -/

/-- The lane in which cell i has taken the digit k: its bit is out of the accumulators of the units
of the cell (R160). -/
def LaneGrid.assign (q : LaneGrid) (i : Fin 81) (k : Fin 9) : LaneGrid where
  cell i' := if i' = i then 1#9 <<< k.val else q.cell i'
  acc u := if u.has i then andNot (q.acc u) (1#9 <<< k.val) else q.acc u

@[simp] theorem assign_cell_self (q : LaneGrid) (i : Fin 81) (k : Fin 9) :
    (q.assign i k).cell i = 1#9 <<< k.val := if_pos rfl

theorem assign_cell_ne (q : LaneGrid) {i i' : Fin 81} (k : Fin 9) (h : i' ≠ i) :
    (q.assign i k).cell i' = q.cell i' := if_neg h

/-- Cell i is unsolved and k is its only candidate. -/
structure LaneGrid.Single (q : LaneGrid) (i : Fin 81) (k : Fin 9) : Prop where
  cell : q.cell i = 0#9
  cand : q.cand i = 1#9 <<< k.val

theorem laneStep_of_single {q : LaneGrid} {i : Fin 81} {k : Fin 9} (h : q.Single i k) :
    q.step i = q.assign i k := by
  have hone : onehot9 (q.cand i) = true := by rw [h.cand, onehot9_digitMask]
  refine LaneGrid.ext (funext fun i' => ?_) (funext fun u => ?_)
  · rw [laneStep_cell_of_single h.cell hone, h.cand]
    rfl
  · rw [laneStep_acc_of_single h.cell hone, h.cand]
    rfl

/-- **R161**: in a legal lane a cell step changes nothing, or it gives an unsolved cell its only
candidate. -/
theorem laneStep_cases {q : LaneGrid} (hl : q.Legal) (i : Fin 81) :
    q.step i = q ∨ ∃ k, q.Single i k ∧ q.step i = q.assign i k := by
  rcases hl.cells i with h0 | hsolved
  · cases hone : onehot9 (q.cand i) with
    | false => exact .inl (laneStep_of_undecided h0 hone)
    | true =>
      obtain ⟨k, hk⟩ := (onehot9_iff _).mp hone
      exact .inr ⟨k, ⟨h0, hk⟩, laneStep_of_single ⟨h0, hk⟩⟩
  · exact .inl (laneStep_of_solved hl hsolved)

/-- An only candidate is held by no cell of the units of the cell. -/
theorem cell_ne_of_single {q : LaneGrid} (hl : q.Legal) {i i' : Fin 81} {k : Fin 9}
    (h : q.Single i k) {kd : UnitKind} (hu : unitOf kd i' = unitOf kd i) :
    q.cell i' ≠ 1#9 <<< k.val := by
  refine (cand_bit_iff hl i k).mp ?_ kd i' hu
  rw [h.cand, getLsbD_digitMask, decide_eq_true rfl]

/-! ### Legality along cell steps (R33, R170) -/

/-- A digit is out of an accumulator when the cell that took it is in the unit, or it was out. -/
theorem assign_acc_bit_iff (q : LaneGrid) (i : Fin 81) (k : Fin 9) (u : GridUnit) (m : Fin 9) :
    ((q.assign i k).acc u).getLsbD m.val = false ↔
      (u.has i ∧ k = m) ∨ (q.acc u).getLsbD m.val = false := by
  by_cases hu : u.has i
  · have hacc : (q.assign i k).acc u = andNot (q.acc u) (1#9 <<< k.val) := if_pos hu
    rw [hacc, getLsbD_andNot, getLsbD_digitMask, Bool.and_eq_false_iff, Bool.not_eq_false',
      decide_eq_true_eq, or_comm, and_iff_right hu]
  · have hacc : (q.assign i k).acc u = q.acc u := if_neg hu
    rw [hacc, or_iff_right fun ⟨hi, _⟩ => hu hi]

/-- A unit holds a digit when the cell that took it is in the unit, or the unit held it. -/
theorem assign_holds_iff {q : LaneGrid} {i : Fin 81} (h0 : q.cell i = 0#9) (k : Fin 9)
    (u : GridUnit) (m : Fin 9) :
    (∃ i', u.has i' ∧ (q.assign i k).cell i' = 1#9 <<< m.val) ↔
      (u.has i ∧ k = m) ∨ ∃ i', u.has i' ∧ q.cell i' = 1#9 <<< m.val := by
  constructor
  · rintro ⟨i', hu, hm⟩
    by_cases hi : i' = i
    · subst hi
      rw [assign_cell_self] at hm
      exact .inl ⟨hu, digitMask_injective hm⟩
    · rw [assign_cell_ne q k hi] at hm
      exact .inr ⟨i', hu, hm⟩
  · rintro (⟨hu, rfl⟩ | ⟨i', hu, hm⟩)
    · exact ⟨i, hu, assign_cell_self q i k⟩
    · have hi : i' ≠ i := by
        rintro rfl
        exact digitMask_ne_zero m (hm.symm.trans h0)
      exact ⟨i', hu, (assign_cell_ne q k hi).trans hm⟩

theorem assign_legal {q : LaneGrid} (hl : q.Legal) {i : Fin 81} {k : Fin 9} (h : q.Single i k) :
    (q.assign i k).Legal := by
  refine ⟨fun i' => ?_, fun u m => by
    rw [assign_acc_bit_iff, hl.inv, assign_holds_iff h.cell]⟩
  by_cases hi : i' = i
  · subst hi
    rw [assign_cell_self]
    exact .inr (onehot9_digitMask k)
  · rw [assign_cell_ne q k hi]
    exact hl.cells i'

/-- **The induction, once**: what holds of a legal lane and is kept when an unsolved cell takes its
only candidate holds, with legality, after any cell steps. -/
theorem laneSteps_invariant {P : LaneGrid → Prop}
    (hkeep : ∀ q i k, q.Legal → q.Single i k → P q → P (q.assign i k)) (l : List (Fin 81))
    {q : LaneGrid} (hl : q.Legal) (hP : P q) :
    (l.foldl LaneGrid.step q).Legal ∧ P (l.foldl LaneGrid.step q) := by
  induction l generalizing q with
  | nil => exact ⟨hl, hP⟩
  | cons i l ih =>
    rw [List.foldl_cons]
    rcases laneStep_cases hl i with heq | ⟨k, hk, heq⟩
    · rw [heq]
      exact ih hl hP
    · rw [heq]
      exact ih (assign_legal hl hk) (hkeep q i k hl hk hP)

theorem laneSteps_legal (l : List (Fin 81)) {q : LaneGrid} (hl : q.Legal) :
    (l.foldl LaneGrid.step q).Legal :=
  And.left <| laneSteps_invariant (P := fun _ => True) (fun _ _ _ _ _ _ => trivial) l hl trivial

/-- Cell steps keep a grid legal. -/
theorem stepCells_legal {g : Grid c} (hl : g.Legal) (l : List (Fin 81)) :
    (stepCells l g).Legal := by
  obtain ⟨hcellPads, haccPads⟩ := stepCells_pads l g
  refine grid_legal_of_lanes (fun j => ?_) (fun i => ?_) (fun u => ?_)
  · rw [laneGrid_stepCells]
    exact laneSteps_legal l (laneGrid_legal hl j)
  · obtain ⟨hpads, _⟩ := hl.cells i
    rw [hcellPads, hpads]
  · rw [haccPads, hl.accPads u]

/-- In a legal lane the cells determine the accumulators (R170). -/
theorem laneGrid_ext_of_legal {q r : LaneGrid} (hq : q.Legal) (hr : r.Legal)
    (h : ∀ i, q.cell i = r.cell i) : q = r := by
  refine LaneGrid.ext (funext h) (funext fun u => mask_ext fun k => ?_)
  rw [← Bool.not_inj_iff, Bool.eq_iff_iff, Bool.not_eq_true', Bool.not_eq_true', hq.inv, hr.inv]
  simp only [h]

/-! ### The cases of a cell step (R161) -/

/-- A solved cell's digit is no candidate of it. -/
theorem cand_and_cell_of_solved {q : LaneGrid} (hl : q.Legal) {i : Fin 81}
    (hs : onehot9 (q.cell i) = true) : q.cand i &&& q.cell i = 0#9 := by
  obtain ⟨k, hk⟩ := (onehot9_iff _).mp hs
  refine mask_ext fun m => ?_
  rw [BitVec.getLsbD_and, BitVec.getLsbD_zero, hk, getLsbD_digitMask]
  by_cases hm : k = m
  · subst hm
    rw [cand_bit_of_solved hl hk, Bool.false_and]
  · rw [decide_eq_false hm, Bool.and_false]

theorem lane_cellStep_cell (g : Grid c) (i k : Fin 81) (j : Fin c.lanes) :
    lane (cellStep g i).cells[k] j = ((g.laneGrid j).step i).cell k :=
  congrFun (congrArg LaneGrid.cell (laneGrid_cellStep g i j)) k

theorem lane_cellStep_acc (g : Grid c) (i : Fin 81) (u : GridUnit) (j : Fin c.lanes) :
    lane ((cellStep g i).accs.get u) j = ((g.laneGrid j).step i).acc u :=
  congrFun (congrArg LaneGrid.acc (laneGrid_cellStep g i j)) u

/-- Settles O40: each clause is the lane's step in that case. -/
theorem cellStepCases : Obligations.CellStepCases := by
  intro c g i j hl cand
  have hlane : (g.laneGrid j).Legal := laneGrid_legal hl j
  have hcand : cand = (g.laneGrid j).cand i := rfl
  rw [hcand]
  refine ⟨fun h0 hone => ⟨?_, fun u hu => ?_⟩, fun h0 hnot => ?_, fun hs => ⟨?_, ?_⟩⟩
  · rw [lane_cellStep_cell, laneStep_cell_of_single h0 hone, if_pos rfl]
  · rw [lane_cellStep_acc, laneStep_acc_of_single h0 hone, if_pos hu]
    rfl
  · rw [sameLane_iff, laneGrid_cellStep, laneStep_of_undecided h0 hnot]
  · exact cand_and_cell_of_solved hlane hs
  · rw [sameLane_iff, laneGrid_cellStep, laneStep_of_solved hlane hs]

/-! ### Monotonicity (R171, R172, R173) -/

/-- A solved cell keeps its digit. -/
theorem laneSteps_cell_of_solved {q : LaneGrid} (hl : q.Legal) (l : List (Fin 81)) {i : Fin 81}
    (hs : onehot9 (q.cell i) = true) : (l.foldl LaneGrid.step q).cell i = q.cell i := by
  refine (laneSteps_invariant (P := fun r => r.cell i = q.cell i) (fun r a k _ hk hr => ?_) l hl
    rfl).2
  have hne : i ≠ a := by
    rintro rfl
    rw [← hr, hk.cell, onehot9_zero] at hs
    cases hs
  rw [assign_cell_ne r k hne, hr]

/-- No bit of an accumulator comes back, pad bits included. -/
theorem stepCells_acc_andNot {g : Grid c} (hl : g.Legal) (l : List (Fin 81)) (u : GridUnit) :
    andNot ((stepCells l g).accs.get u) (g.accs.get u) = 0 := by
  refine laneWord_ext (fun j => ?_) ?_
  · have hbelow := laneSteps_below l (g.laneGrid j)
    rw [← laneGrid_stepCells] at hbelow
    obtain ⟨_, hacc⟩ := hbelow
    rw [lane_andNot]
    refine Eq.trans ?_ (lane_zero j).symm
    refine mask_ext fun k => ?_
    have hbit := congrArg (fun m => BitVec.getLsbD m k.val) (hacc u)
    simp only [BitVec.getLsbD_and, Grid.laneGrid] at hbit
    rw [getLsbD_andNot, ← hbit, BitVec.getLsbD_zero, Bool.and_assoc, Bool.and_not_self,
      Bool.and_false]
  · have hpads := (stepCells_legal hl l).accPads u
    rw [padBits_andNot _ _ hpads]
    exact padBits_zero.symm

/-- Settles O41: solved cells by the induction over the steps, unsolved cells by legality after
them, the accumulators bit by bit. -/
theorem eliminationIsMonotone : Obligations.EliminationIsMonotone := by
  intro c g l hl
  refine ⟨fun i j => ⟨fun hs => ?_, fun _ => ?_⟩, fun u => stepCells_acc_andNot hl l u⟩
  · have hkeep := laneSteps_cell_of_solved (laneGrid_legal hl j) l hs
    rwa [← laneGrid_stepCells] at hkeep
  · exact (laneGrid_legal (stepCells_legal hl l) j).cells i

theorem stepCells_of_fixed {g : Grid c} (h : ∀ i, cellStep g i = g) (l : List (Fin 81)) :
    stepCells l g = g := List.foldl_fixed' h l

/-- A cell that is solved in every lane is stepped without a change. -/
theorem cellStep_of_solved {g : Grid c} (hl : g.Legal) {i : Fin 81} (hs : ∀ j, g.Solved i j) :
    cellStep g i = g := by
  obtain ⟨hcellPads, haccPads⟩ := cellStep_pads g i
  refine grid_ext_lanes (fun j => ?_) hcellPads haccPads
  rw [laneGrid_cellStep]
  exact laneStep_of_solved (laneGrid_legal hl j) (hs j)

/-- Settles O42: rounds are cell steps, each on a solved cell. -/
theorem solvedCellStepChangesNothing : Obligations.SolvedCellStepChangesNothing := by
  intro c g hl
  refine ⟨fun i hs => cellStep_of_solved hl hs, fun hs r => ?_⟩
  rw [rounds_eq_stepCells]
  exact stepCells_of_fixed (fun i => cellStep_of_solved hl (hs i)) _

/-- Steps only move a lane one way, so steps that end where they began each changed nothing. -/
theorem laneStep_eq_of_laneSteps_eq {q : LaneGrid} {l : List (Fin 81)}
    (h : l.foldl LaneGrid.step q = q) : ∀ i ∈ l, q.step i = q := by
  induction l with
  | nil => exact fun i hi => absurd hi List.not_mem_nil
  | cons a l ih =>
    rw [List.foldl_cons] at h
    have hback : (q.step a).Below q := by
      have hbelow := laneSteps_below l (q.step a)
      rwa [h] at hbelow
    have ha : q.step a = q := laneGrid_below_antisymm hback (laneStep_below q a)
    rw [ha] at h
    intro i hi
    rcases List.mem_cons.mp hi with rfl | hi
    · exact ha
    · exact ih h i hi

/-- No cell step changes the lane any more. -/
def LaneGrid.AtRest (q : LaneGrid) : Prop := ∀ i, q.step i = q

theorem laneAtRest_iff {g : Grid c} {j : Fin c.lanes} :
    g.LaneAtRest j ↔ (g.laneGrid j).AtRest :=
  forall_congr' fun i => by rw [sameLane_iff, laneGrid_cellStep, eq_comm]

theorem laneSteps_of_atRest {q : LaneGrid} (h : q.AtRest) (l : List (Fin 81)) :
    l.foldl LaneGrid.step q = q := List.foldl_fixed' h l

/-- A round that changes nothing in the lane leaves it at rest. -/
theorem atRest_of_round {q : LaneGrid} (h : (List.finRange 81).foldl LaneGrid.step q = q) :
    q.AtRest := fun i => laneStep_eq_of_laneSteps_eq h i (List.mem_finRange i)

/-- A lane in which a round changes nothing keeps through any cell steps (R173). -/
theorem stepCells_sameLane_of_round {g : Grid c} {j : Fin c.lanes}
    (h : g.SameLane j (gridRound g)) (l : List (Fin 81)) : g.SameLane j (stepCells l g) := by
  rw [sameLane_iff, gridRound_eq, laneGrid_stepCells] at h
  rw [sameLane_iff, laneGrid_stepCells]
  exact (laneSteps_of_atRest (atRest_of_round h.symm) l).symm

/-- A grid whose lanes all come to rest is itself at rest: cell steps change no pad bit. -/
theorem stepCells_eq_of_sameLane {g : Grid c} {l : List (Fin 81)}
    (h : ∀ j, g.SameLane j (stepCells l g)) : stepCells l g = g := by
  obtain ⟨hcellPads, haccPads⟩ := stepCells_pads l g
  exact grid_ext_lanes (fun j => (sameLane_iff.mp (h j)).symm) hcellPads haccPads

/-- Settles O43: lane by lane, each step of the round that changed nothing did so itself. -/
theorem idempotentPastFixpoint : Obligations.IdempotentPastFixpoint := by
  intro c g l
  refine ⟨fun h => stepCells_eq_of_sameLane fun j => stepCells_sameLane_of_round ?_ l,
    fun j h => stepCells_sameLane_of_round h l⟩
  rw [h, sameLane_iff]

/-! ### Convergence (R174) -/

/-- The number of unsolved cells of a lane. -/
def LaneGrid.unsolved (q : LaneGrid) : Nat :=
  ((List.finRange 81).filter fun i => decide (q.cell i = 0#9)).length

theorem unsolved_le (q : LaneGrid) : q.unsolved ≤ 81 :=
  (List.length_filter_le _ _).trans_eq List.length_finRange

/-- Giving an unsolved cell a digit leaves one unsolved cell fewer. -/
theorem unsolved_assign_lt {q : LaneGrid} {i : Fin 81} (h0 : q.cell i = 0#9) (k : Fin 9) :
    (q.assign i k).unsolved < q.unsolved := by
  have hfilter : (List.finRange 81).filter (fun i' => decide ((q.assign i k).cell i' = 0#9)) =
      ((List.finRange 81).filter fun i' => decide (q.cell i' = 0#9)).filter
        fun i' => decide (i' ≠ i) := by
    rw [List.filter_filter]
    refine List.filter_congr fun i' _ => ?_
    by_cases hi : i' = i
    · subst hi
      simp [digitMask_ne_zero]
    · simp [assign_cell_ne q k hi, hi]
  rw [LaneGrid.unsolved, hfilter]
  exact List.length_filter_lt_length_iff_exists.mpr ⟨i, by simp [h0], by simp⟩

/-- Cell steps change nothing, or they leave fewer unsolved cells. -/
theorem laneSteps_unsolved {q : LaneGrid} (hl : q.Legal) (l : List (Fin 81)) :
    l.foldl LaneGrid.step q = q ∨ (l.foldl LaneGrid.step q).unsolved < q.unsolved := by
  refine (laneSteps_invariant (P := fun r => r = q ∨ r.unsolved < q.unsolved)
    (fun r i k _ hk hr => .inr ?_) l hl (.inl rfl)).2
  have hlt := unsolved_assign_lt hk.cell k
  rcases hr with rfl | hr
  · exact hlt
  · exact hlt.trans hr

theorem atRest_of_unsolved_eq_zero {q : LaneGrid} (hl : q.Legal) (h : q.unsolved = 0) :
    q.AtRest := fun i =>
  (laneSteps_unsolved hl [i]).resolve_right (by rw [h]; exact Nat.not_lt_zero _)

/-- A lane with at most n unsolved cells is at rest after n rounds. -/
theorem laneAtRest_rounds {g : Grid c} (hl : g.Legal) {j : Fin c.lanes} {n : Nat}
    (h : (g.laneGrid j).unsolved ≤ n) : (rounds n g).LaneAtRest j := by
  induction n generalizing g with
  | zero =>
    exact laneAtRest_iff.mpr (atRest_of_unsolved_eq_zero (laneGrid_legal hl j) (Nat.le_zero.mp h))
  | succ n ih =>
    rcases laneSteps_unsolved (laneGrid_legal hl j) (List.finRange 81) with heq | hlt
    · rw [laneAtRest_iff, rounds_eq_stepCells, laneGrid_stepCells,
        laneSteps_of_atRest (atRest_of_round heq)]
      exact atRest_of_round heq
    · rw [← laneGrid_stepCells] at hlt
      exact ih (stepCells_legal hl _) (Nat.le_of_lt_succ (hlt.trans_le h))

theorem rounds_add (a b : Nat) (g : Grid c) : rounds (a + b) g = rounds b (rounds a g) := by
  induction a generalizing g with
  | zero => rw [Nat.zero_add, rounds]
  | succ a ih => rw [Nat.succ_add, rounds, ih, rounds]

/-- Settles O44: a round that changes a lane solves a cell of it, and no lane has more than 81. -/
theorem roundsConverge : Obligations.RoundsConverge := by
  intro c g hl
  refine ⟨fun j n h => laneAtRest_rounds hl h, fun n hn => ?_⟩
  obtain ⟨m, rfl⟩ := Nat.exists_eq_add_of_le hn
  rw [rounds_add, rounds_eq_stepCells m]
  refine stepCells_eq_of_sameLane fun j => ?_
  rw [sameLane_iff, laneGrid_stepCells]
  exact (laneSteps_of_atRest (laneAtRest_iff.mp (laneAtRest_rounds hl (unsolved_le _))) _).symm

/-! ### Soundness (R175) -/

/-- Every solved cell of the lane agrees with the assignment. -/
def LaneGrid.Agrees (q : LaneGrid) (sol : Fin 81 → Fin 9) : Prop :=
  ∀ i, onehot9 (q.cell i) = true → q.cell i = 1#9 <<< (sol i).val

theorem agrees_iff {g : Grid c} {j : Fin c.lanes} {sol : Fin 81 → Fin 9} :
    g.Agrees j sol ↔ (g.laneGrid j).Agrees sol := Iff.rfl

/-- The digit a valid Sudoku has in an unsolved cell stays a candidate of the cell. -/
theorem cand_bit_of_agrees {q : LaneGrid} (hl : q.Legal) {sol : Fin 81 → Fin 9}
    (hsol : ValidSudoku sol) (ha : q.Agrees sol) {i : Fin 81} (h0 : q.cell i = 0#9) :
    (q.cand i).getLsbD (sol i).val = true := by
  rw [cand_bit_iff hl]
  intro kd i' hu hcell
  have hsolved : onehot9 (q.cell i') = true := by rw [hcell, onehot9_digitMask]
  have hdigit : sol i' = sol i := digitMask_injective ((ha i' hsolved).symm.trans hcell)
  cases hsol kd i' i hu hdigit
  exact digitMask_ne_zero _ (hcell.symm.trans h0)

/-- An only candidate is the digit of the Sudoku, so taking it keeps the agreement. -/
theorem assign_agrees {q : LaneGrid} (hl : q.Legal) {sol : Fin 81 → Fin 9}
    (hsol : ValidSudoku sol) (ha : q.Agrees sol) {i : Fin 81} {k : Fin 9} (h : q.Single i k) :
    (q.assign i k).Agrees sol := by
  have hk : k = sol i := by
    have hbit := cand_bit_of_agrees hl hsol ha h.cell
    rwa [h.cand, getLsbD_digitMask, decide_eq_true_eq] at hbit
  intro i' hs
  by_cases hi : i' = i
  · subst hi
    rw [assign_cell_self, hk]
  · rw [assign_cell_ne q k hi] at hs ⊢
    exact ha i' hs

/-- Settles O45, by the induction over the steps: agreement is kept when an unsolved cell takes its
only candidate. -/
theorem commitsAreSound : Obligations.CommitsAreSound := by
  intro c g j sol l hl hsol ha
  rw [agrees_iff, laneGrid_stepCells]
  exact (laneSteps_invariant (P := fun q => q.Agrees sol)
    (fun _ _ _ hq hk hqa => assign_agrees hq hsol hqa hk) l (laneGrid_legal hl j) ha).2

/-! ### The order of the steps (R176) -/

/-- Every digit the first lane holds stands in the second, in the same cell. -/
def LaneGrid.Within (p r : LaneGrid) : Prop := ∀ i, p.cell i ≠ 0#9 → r.cell i = p.cell i

/-- More digits leave fewer candidates. -/
theorem cand_of_within {p r : LaneGrid} (hp : p.Legal) (hr : r.Legal) (h : p.Within r)
    (i : Fin 81) : r.cand i &&& p.cand i = r.cand i := by
  refine mask_ext fun k => ?_
  rw [BitVec.getLsbD_and]
  cases hbit : (r.cand i).getLsbD k.val with
  | false => rfl
  | true =>
    rw [Bool.true_and, cand_bit_iff hp]
    intro kd i' hu hcell
    have hheld : p.cell i' ≠ 0#9 := by rw [hcell]; exact digitMask_ne_zero k
    exact (cand_bit_iff hr i k).mp hbit kd i' hu ((h i' hheld).trans hcell)

/-- A lane at rest that agrees with a valid Sudoku has solved every cell that a lane within it could
solve next: the cell's only candidate would be its only candidate there too. -/
theorem assign_within {p r : LaneGrid} (hp : p.Legal) (hr : r.Legal) (h : p.Within r)
    {sol : Fin 81 → Fin 9} (hsol : ValidSudoku sol) (hpa : p.Agrees sol) (hra : r.Agrees sol)
    (hrest : r.AtRest) {i : Fin 81} {k : Fin 9} (hk : p.Single i k) :
    (p.assign i k).Within r := by
  have hsolved : onehot9 (r.cell i) = true := by
    refine (hr.cells i).resolve_left fun h0 => ?_
    have hcand : r.cand i = 1#9 <<< k.val := by
      have hsub := cand_of_within hp hr h i
      rw [hk.cand] at hsub
      refine (onehot9_sub (onehot9_digitMask k) hsub).resolve_left fun hnone => ?_
      have hbit := cand_bit_of_agrees hr hsol hra h0
      rw [hnone, BitVec.getLsbD_zero] at hbit
      cases hbit
    have hstep := congrFun (congrArg LaneGrid.cell (laneStep_of_single ⟨h0, hcand⟩)) i
    rw [hrest i, h0, assign_cell_self] at hstep
    exact digitMask_ne_zero k hstep.symm
  intro i' hne
  by_cases hi : i' = i
  · subst hi
    have hassign := assign_agrees hp hsol hpa hk i' (by rw [assign_cell_self, onehot9_digitMask])
    rw [hra i' hsolved, hassign]
  · rw [assign_cell_ne p k hi] at hne ⊢
    exact h i' hne

/-- What cell steps can reach lies within every lane at rest that they can reach. -/
theorem laneSteps_within {q : LaneGrid} (hl : q.Legal) {sol : Fin 81 → Fin 9}
    (hsol : ValidSudoku sol) (ha : q.Agrees sol) (l l' : List (Fin 81))
    (hrest : (l'.foldl LaneGrid.step q).AtRest) :
    (l.foldl LaneGrid.step q).Within (l'.foldl LaneGrid.step q) := by
  obtain ⟨hr, hra⟩ := laneSteps_invariant (P := fun q => q.Agrees sol)
    (fun _ _ _ hq hk hqa => assign_agrees hq hsol hqa hk) l' hl ha
  have hstart : q.Within (l'.foldl LaneGrid.step q) := fun i hne =>
    laneSteps_cell_of_solved hl l' ((hl.cells i).resolve_left hne)
  obtain ⟨_, _, hwithin⟩ := laneSteps_invariant
    (P := fun p => p.Agrees sol ∧ p.Within (l'.foldl LaneGrid.step q))
    (fun _ _ _ hp hk ⟨hpa, hw⟩ =>
      ⟨assign_agrees hp hsol hpa hk, assign_within hp hr hw hsol hpa hra hrest hk⟩)
    l hl ⟨ha, hstart⟩
  exact hwithin

theorem cell_eq_of_within {p r : LaneGrid} (h : p.Within r) (h' : r.Within p) (i : Fin 81) :
    p.cell i = r.cell i := by
  by_cases hp : p.cell i = 0#9
  · by_cases hr : r.cell i = 0#9
    · rw [hp, hr]
    · exact h' i hr
  · exact (h i hp).symm

/-- Settles O46: each of the two lanes at rest lies within the other, so they have the same cells,
and the cells determine the accumulators. -/
theorem fixpointIsOrderIndependent : Obligations.FixpointIsOrderIndependent := by
  intro c g j sol l l' hl hsol ha hrest hrest'
  have hlane : (g.laneGrid j).Legal := laneGrid_legal hl j
  rw [laneAtRest_iff, laneGrid_stepCells] at hrest hrest'
  rw [sameLane_iff, laneGrid_stepCells, laneGrid_stepCells]
  exact laneGrid_ext_of_legal (laneSteps_legal l hlane) (laneSteps_legal l' hlane)
    (cell_eq_of_within (laneSteps_within hlane hsol ha l l' hrest')
      (laneSteps_within hlane hsol ha l' l hrest))

/-! ### Duplicates (R177, R178) -/

/-- No unit of the lane holds the same digit in two cells. -/
def LaneGrid.NoDuplicate (q : LaneGrid) : Prop :=
  ∀ (kd : UnitKind) (i i' : Fin 81), unitOf kd i = unitOf kd i' → onehot9 (q.cell i) = true →
    q.cell i = q.cell i' → i = i'

theorem noDuplicate_iff {g : Grid c} {j : Fin c.lanes} :
    g.NoDuplicate j ↔ (g.laneGrid j).NoDuplicate := Iff.rfl

/-- A candidate is a digit that no cell of the units holds, so taking it makes no duplicate. -/
theorem assign_noDuplicate {q : LaneGrid} (hl : q.Legal) (hq : q.NoDuplicate) {a : Fin 81}
    {k : Fin 9} (h : q.Single a k) : (q.assign a k).NoDuplicate := by
  intro kd i i' hu hs heq
  by_cases hi : i = a
  · subst hi
    by_contra hne
    rw [assign_cell_self, assign_cell_ne q k (Ne.symm hne)] at heq
    exact cell_ne_of_single hl h hu.symm heq.symm
  · rw [assign_cell_ne q k hi] at hs heq
    by_cases hi' : i' = a
    · subst hi'
      rw [assign_cell_self] at heq
      exact absurd heq (cell_ne_of_single hl h hu)
    · rw [assign_cell_ne q k hi'] at heq
      exact hq kd i i' hu hs heq

/-- Settles O47, by the induction over the steps: no duplicate is made when an unsolved cell takes
its only candidate. -/
theorem noDuplicateIsCreated : Obligations.NoDuplicateIsCreated := by
  intro c g j l hl hnd
  rw [noDuplicate_iff, laneGrid_stepCells]
  exact (laneSteps_invariant (P := LaneGrid.NoDuplicate)
    (fun _ _ _ hq hk hqd => assign_noDuplicate hq hqd hk) l (laneGrid_legal hl j) hnd).2

/-- The cells of a lane that is done are all solved (R46). -/
theorem solved_of_ldoneReg {e : Engine c} {g : Grid c} {j : Fin c.lanes} (hg : e.grid = some g)
    (h : (ldoneReg e).getLsbD j.val = true) (i : Fin 81) : g.Solved i j := by
  obtain ⟨_, hw⟩ := grid_eq_some_iff.mp hg
  obtain ⟨w, hcell, hs⟩ := getLsbD_ldoneReg_iff.mp h i
  rw [words_eq_some_iff.mp hw i, Option.some.injEq] at hcell
  rwa [← hcell] at hs

/-- Settles O48: the digits of the solved cells are the assignment, and two equal digits in a unit
are a duplicate. -/
theorem doneLaneIsValidSudoku : Obligations.DoneLaneIsValidSudoku := by
  intro c e g j hg hnd hdone
  have hs := solved_of_ldoneReg hg hdone
  choose sol hsol using fun i => (onehot9_iff (lane g.cells[i] j)).mp (hs i)
  refine ⟨sol, fun kd i i' hu heq => hnd kd i i' hu (hs i) ?_, hsol⟩
  rw [hsol i, hsol i', heq]

end Sys2Proof.Machine

/-!
PROOFS. The legal states (spec/10_state.md R33, R38, R39, R45; spec/42_propagation.md R170): INV in
its two forms, the accumulators of INIT (R150, R151), and every step keeps the legal states.
-/

namespace Sys2Proof.Machine

variable {c : Cfg}

/-! ### Idle and reset -/

/-- Settles O9: the first clause of `step`. -/
theorem idleStepWaits : Obligations.IdleStepWaits := by
  intro s hp
  unfold step
  rw [hp]
  rfl

/-- A block in which nothing is valid and no fault is recorded is legal. -/
theorem reset_legal (c : Cfg) : (Engine.reset c).Legal where
  cells i w h := by
    rw [reset_cells] at h
    cases h
  callOfAv := nofun
  accPads := nofun
  inv g h := by
    rw [grid_of_not_av (reset_av (c := c))] at h
    cases h
  record := nofun

/-- Settles O33: every clause of legality is about something the block has lost. -/
theorem resetIsLegal : Obligations.ResetIsLegal := ⟨reset_legal, reset_legal Cfg.ofReset⟩

/-! ### INV (R170) -/

/-- A digit in a legal lane is the lane's whole mask. -/
theorem legalMask_bit_iff {v : Mask} (h : blankOrOneHot v = true) (k : Fin 9) :
    v.getLsbD k.val = true ↔ v = 1#9 <<< k.val := by
  rcases blankOrOneHot_iff_digit.mp h with rfl | ⟨m, rfl⟩
  · rw [BitVec.getLsbD_zero]
    exact iff_of_false Bool.false_ne_true (digitMask_ne_zero k).symm
  · rw [getLsbD_digitMask, decide_eq_true_eq]
    exact ⟨fun h => by rw [h], digitMask_injective⟩

/-- The bits of the union of some masks. -/
theorem getLsbD_foldl_union {ι : Type} (p : ι → Prop) [DecidablePred p] (v : ι → Mask) (l : List ι)
    (m : Mask) (b : Nat) :
    (l.foldl (fun m i => if p i then m ||| v i else m) m).getLsbD b = true ↔
      m.getLsbD b = true ∨ ∃ i ∈ l, p i ∧ (v i).getLsbD b = true := by
  induction l generalizing m with
  | nil => simp
  | cons i l ih =>
    rw [List.foldl_cons, ih, List.exists_mem_cons_iff, ← or_assoc]
    refine or_congr_left ?_
    by_cases hi : p i
    · rw [if_pos hi, BitVec.getLsbD_or, Bool.or_eq_true, and_iff_right hi]
    · rw [if_neg hi, or_iff_left fun ⟨hpi, _⟩ => hi hpi]

/-- The digits the cells of a unit hold, in a lane. -/
theorem unitDigits_bit_iff {g : Grid c} (h : ∀ i : Fin 81, LegalCellWord g.cells[i]) (u : GridUnit)
    (j : Fin c.lanes) (k : Fin 9) :
    ((List.finRange 81).foldl
        (fun m i => if u.has i then m ||| lane g.cells[i] j else m) 0#9).getLsbD k.val = true ↔
      ∃ i : Fin 81, u.has i ∧ lane g.cells[i] j = 1#9 <<< k.val := by
  have hbit (i : Fin 81) :
      (lane g.cells[i] j).getLsbD k.val = true ↔ lane g.cells[i] j = 1#9 <<< k.val := by
    obtain ⟨_, hlanes⟩ := h i
    exact legalMask_bit_iff (hlanes j) k
  rw [getLsbD_foldl_union]
  simp only [BitVec.getLsbD_zero, Bool.false_eq_true, false_or, List.mem_finRange, true_and, hbit]

/-- A mask is 0x1FF less another exactly when its zeros are the other's ones. -/
theorem eq_complement_iff {a m : Mask} :
    a = 0x1FF#9 &&& ~~~m ↔ ∀ k : Fin 9, a.getLsbD k.val = false ↔ m.getLsbD k.val = true := by
  have hbit (k : Fin 9) : (0x1FF#9 &&& ~~~m).getLsbD k.val = !m.getLsbD k.val := by
    have handNot : 0x1FF#9 &&& ~~~m = andNot 0x1FF#9 m := rfl
    rw [handNot, getLsbD_andNot, getLsbD_allDigits, decide_eq_true k.isLt, Bool.true_and]
  constructor
  · rintro rfl k
    rw [hbit, Bool.not_eq_false']
  · intro h
    refine mask_ext fun k => ?_
    rw [hbit, ← Bool.not_inj_iff, Bool.not_not, Bool.eq_iff_iff, Bool.not_eq_true', h k]

/-- Settles O36: bit k of the union is 1 exactly when some cell of the unit holds the digit. -/
theorem invAsComplementOfUnion : Obligations.InvAsComplementOfUnion := by
  intro c g h
  refine forall₂_congr fun u j => ?_
  simp only [eq_complement_iff, unitDigits_bit_iff h]

/-! ### INIT (R150, R151) -/

/-- Settles O37: which cells clear a bit of an accumulator does not depend on their order. -/
theorem initOrderDoesNotMatter : Obligations.InitOrderDoesNotMatter := by
  intro c cells l hl
  refine accs_ext fun u => BitVec.eq_of_getLsbD_eq fun b _ => ?_
  rw [initAccs, getLsbD_foldl_clearCell, getLsbD_foldl_clearCell, hl.all_eq]

/-- The grid of a legal block is legal. -/
theorem grid_legal_of_engine {e : Engine c} (hl : e.Legal) {g : Grid c} (hg : e.grid = some g) :
    g.Legal := by
  obtain ⟨ha, hw⟩ := grid_eq_some_iff.mp hg
  exact ⟨fun i => hl.cells i _ (words_eq_some_iff.mp hw i), hl.accPads _ ha, hl.inv g hg⟩

/-- In a legal grid the cells determine the accumulators (R170). -/
theorem grid_eq_of_cells {g g' : Grid c} (hl : g.Legal) (hl' : g'.Legal) (h : g.cells = g'.cells) :
    g = g' := by
  refine grid_ext_lanes (fun j => ?_) (fun i => by rw [h]) fun u => ?_
  · refine laneGrid_ext_of_legal (laneGrid_legal hl j) (laneGrid_legal hl' j) fun i => ?_
    rw [Grid.laneGrid, Grid.laneGrid, h]
  · rw [hl.accPads, hl'.accPads]

/-- The accumulators of a legal grid are those INIT computes from its cells. -/
theorem accs_of_legal {g : Grid c} (hl : g.Legal) : g.accs = initAccs g.cells := by
  have hgrid := congrArg Grid.accs (grid_eq_of_cells hl (initGrid_legal hl.cells) rfl)
  exact hgrid

/-- With AV = 1 a legal block has its grid (R38). -/
theorem exists_grid_of_av {e : Engine c} (hl : e.Legal) (hav : e.av = true) :
    ∃ g, e.grid = some g :=
  Option.ne_none_iff_exists'.mp fun hnone =>
    Bool.eq_false_iff.mp ((grid_eq_none_iff_av hl).mp hnone) hav

/-- Settles O38: the accumulators of a legal grid are INIT's. -/
theorem initAfterRunChangesNothing : Obligations.InitAfterRunChangesNothing := by
  intro s hl he hav
  obtain ⟨g, hg⟩ := exists_grid_of_av hl hav
  obtain ⟨ha, hw⟩ := grid_eq_some_iff.mp hg
  refine exec_of_complete ((initReply_of_words he hw).trans ?_)
  rw [← accs_of_legal (grid_legal_of_engine hl hg), ← ha]

/-! ### Words that WR stores -/

/-- Data that passes WR's check has no bit above the lane-word (R134). -/
theorem toBus_fromBus {d : BusWord c} (h : wellFormedData d = true) : toBus (fromBus d) = d := by
  rw [wellFormedData, Bool.and_eq_true, decide_eq_true_eq] at h
  obtain ⟨hpads, _⟩ := h
  apply BitVec.eq_of_getLsbD_eq
  intro b _
  rw [getLsbD_toBus, getLsbD_fromBus]
  by_cases hb : b < c.wordBits
  · rw [decide_eq_true hb, Bool.true_and]
  · have hout : ¬ InLane c b := by
      rintro ⟨j, _, hlt⟩
      have := laneBase_add_le j
      omega
    have hzero := andNot_eq_zero_iff.mp hpads b
      (by rw [getLsbD_toBus, getLsbD_onesWord, decide_eq_false hout])
    rw [hzero, Bool.and_false]

theorem legalCellWord_fromBus {d : BusWord c} (h : wellFormedData d = true) :
    LegalCellWord (fromBus d) := by
  rw [← wellFormedData_toBus_iff, toBus_fromBus h, h]

/-! ### What a command can do to the block -/

/-- Everything that the command i, presented as the word cmd, can leave of the block e. -/
inductive CommandEffect (cmd : Word32) (e : Engine c) : Instr → Engine c → Prop where
  /-- Dropped, or a command that changes nothing (R137, R190, R191, R207). -/
  | keeps (i : Instr) : CommandEffect cmd e i e
  /-- Fault entry with a cause that the command can raise (R202, R206). -/
  | faults {i : Instr} {x : Cause} (hfits : decode cmd = .ok i → FaultRecord.Fits ⟨x, cmd⟩) :
      CommandEffect cmd e i (raise x cmd e).engine
  | newb : CommandEffect cmd e .newb (invalidateAll e)
  | wr (i : Fin 81) {w : LaneWord c} (hw : LegalCellWord w) :
      CommandEffect cmd e (.wr i.val) (memWrite e i w)
  | init {ws : Vector (LaneWord c) 81} (hw : e.words = some ws) :
      CommandEffect cmd e .init { e with accs := some (initAccs ws) }
  | prop (i : Fin 81) {g : Grid c} (hg : e.grid = some g) :
      CommandEffect cmd e (.prop i.val) (e.withGrid (cellStep g i))
  | run (r : Nat) {g : Grid c} (hg : e.grid = some g) :
      CommandEffect cmd e (.run r) (e.withGrid (rounds r g))

section effect
variable {e : Engine c} (he : e.err = false) (cmd : Word32)
include he

theorem wrReply_effect (a : Nat) (w : BusWord c) :
    CommandEffect cmd e (.wr a) (wrReply a cmd w e).engine := by
  rcases wrReply_cases he a cmd w with ⟨ha, h⟩ | ⟨h1, h2, h⟩ | ⟨k, rfl, _, h⟩ | ⟨k, rfl, hw, h⟩
  · rw [h]
    exact .faults fun hd => by simpa only [FaultRecord.Fits, hd] using ha
  · rw [h]
    exact .faults fun hd => by simpa only [FaultRecord.Fits, hd] using ⟨h1, h2⟩
  · rw [h]
    exact .faults fun hd => by simpa only [FaultRecord.Fits, hd] using Nat.le_of_lt_succ k.isLt
  · rw [h]
    exact .wr k (legalCellWord_fromBus hw)

theorem rdReply_effect (a : Nat) : CommandEffect cmd e (.rd a) (rdReply a cmd e).engine := by
  rcases rdReply_cases he a cmd with ⟨ha, h⟩ | ⟨g, hg, _, h⟩ | ⟨_, _, _, _, h⟩
  · rw [h]
    exact .faults fun hd => by simpa only [FaultRecord.Fits, hd] using ha
  · have ha : a ≤ 107 := Nat.le_of_not_lt fun hbig =>
      nomatch hg.symm.trans (gridWord_eq_none_iff.mpr hbig)
    rw [h]
    exact .faults fun hd => by simpa only [FaultRecord.Fits, hd] using ha
  · rw [h]
    exact .keeps _

theorem initReply_effect : CommandEffect cmd e .init (initReply cmd e).engine := by
  rcases initReply_cases he cmd with ⟨_, h⟩ | ⟨ws, hw, h⟩
  · rw [h]
    exact .faults fun hd => by simp only [FaultRecord.Fits, hd]
  · rw [h]
    exact .init hw

theorem propReply_effect (n : Nat) : CommandEffect cmd e (.prop n) (propReply n cmd e).engine := by
  rcases propReply_cases he n cmd with ⟨hn, h⟩ | ⟨hn, _, h⟩ | ⟨k, g, rfl, hg, h⟩
  · rw [h]
    exact .faults fun hd => by simpa only [FaultRecord.Fits, hd] using hn
  · rw [h]
    exact .faults fun hd => by simpa only [FaultRecord.Fits, hd] using hn
  · rw [h]
    exact .prop k hg

theorem runReply_effect (r : Nat) : CommandEffect cmd e (.run r) (runReply r cmd e).engine := by
  rcases runReply_cases he r cmd with ⟨_, h⟩ | ⟨g, hg, h⟩
  · rw [h]
    exact .faults fun hd => by simp only [FaultRecord.Fits, hd]
  · rw [h]
    exact .run r hg

end effect

/-- RDCSR has its effect in a faulted block too (R191). -/
theorem rdcsrReply_effect (n : Nat) (cmd : Word32) (e : Engine c) :
    CommandEffect cmd e (.rdcsr n) (rdcsrReply n cmd e).engine := by
  rcases rdcsrReply_cases n cmd e with ⟨_, _, h⟩ | ⟨hn, h⟩
  · rw [h]
    exact .keeps _
  · rw [h, requireNotErr]
    split
    · exact .keeps _
    · exact .faults fun hd => by simpa only [FaultRecord.Fits, hd] using hn

/-- **The effect of each command**: a faulted block keeps still, and else one of the ways in which
the command's transaction can end. -/
theorem commandEffect (i : Instr) (cmd : Word32) (w : BusWord c) (e : Engine c) :
    CommandEffect cmd e i (commandReply i cmd w e).engine := by
  by_cases hcsr : ∃ n, i = .rdcsr n
  · obtain ⟨n, rfl⟩ := hcsr
    exact rdcsrReply_effect n cmd e
  · cases he : e.err with
    | true =>
      rw [commandReply_of_err he fun n _ h => hcsr ⟨n, h⟩]
      exact .keeps i
    | false =>
      cases i with
      | nop =>
        rw [commandReply, nopReply_eq he]
        exact .keeps _
      | newb =>
        rw [commandReply, newbReply_eq he]
        exact .newb
      | wr a => exact wrReply_effect he cmd a w
      | rd a => exact rdReply_effect he cmd a
      | init => exact initReply_effect he cmd
      | prop n => exact propReply_effect he cmd n
      | run r => exact runReply_effect he cmd r
      | rdcsr n => exact rdcsrReply_effect n cmd e

/-! ### Legality after each effect -/

/-- INIT on valid cells leaves the grid of the cells and their accumulators. -/
theorem withInitAccs_eq {e : Engine c} {ws : Vector (LaneWord c) 81} (hw : e.words = some ws) :
    ({ e with accs := some (initAccs ws) } : Engine c) =
      e.withGrid { cells := ws, accs := initAccs ws } :=
  engine_ext (fun i => by rw [withAccs_cells, withGrid_cells, words_eq_some_iff.mp hw i]) rfl rfl

section legality
variable {e : Engine c} (hl : e.Legal)
include hl

/-- Fault entry keeps the grid words (R206). -/
theorem raise_legal {x : Cause} {cmd : Word32} (hfits : FaultRecord.Fits ⟨x, cmd⟩) :
    (raise x cmd e).engine.Legal where
  cells := hl.cells
  callOfAv := hl.callOfAv
  accPads := hl.accPads
  inv := hl.inv
  record f hf := by
    rw [raise_fault, Option.some.injEq] at hf
    rwa [← hf]

/-- Without accumulators only the cells and the fault record are left to check. -/
theorem legal_of_not_av {e' : Engine c} (hav : e'.accs = none)
    (hcells : ∀ (i : Fin 81) (w : LaneWord c), e'.cells[i] = some w → LegalCellWord w)
    (hfault : e'.fault = e.fault) : e'.Legal where
  cells := hcells
  callOfAv h := by
    rw [Engine.av, hav] at h
    cases h
  accPads a h := by
    rw [hav] at h
    cases h
  inv g h := by
    rw [grid_of_not_av (by rw [Engine.av, hav]; rfl)] at h
    cases h
  record f h := hl.record f (hfault ▸ h)

theorem invalidateAll_legal : (invalidateAll e).Legal :=
  legal_of_not_av hl rfl (fun i w h => by rw [invalidateAll_cells] at h; cases h) rfl

theorem memWrite_legal (i : Fin 81) {w : LaneWord c} (hw : LegalCellWord w) :
    (memWrite e i w).Legal := by
  refine legal_of_not_av hl rfl (fun k w' h => ?_) rfl
  by_cases hk : k = i
  · subst hk
    rw [memWrite_cells_self, Option.some.injEq] at h
    rwa [← h]
  · rw [memWrite_cells_ne _ _ _ hk] at h
    exact hl.cells k w' h

theorem withStepCells_legal {g : Grid c} (hg : e.grid = some g) (l : List (Fin 81)) :
    (e.withGrid (stepCells l g)).Legal :=
  engine_legal_withGrid (stepCells_legal (grid_legal_of_engine hl hg) l) hl.record

theorem withInitAccs_legal {ws : Vector (LaneWord c) 81} (hw : e.words = some ws) :
    ({ e with accs := some (initAccs ws) } : Engine c).Legal := by
  rw [withInitAccs_eq hw]
  exact engine_legal_withGrid
    (initGrid_legal fun i => hl.cells i _ (words_eq_some_iff.mp hw i)) hl.record

theorem commandEffect_legal {cmd : Word32} {i : Instr} (hd : decode cmd = .ok i) {e' : Engine c}
    (h : CommandEffect cmd e i e') : e'.Legal := by
  cases h with
  | keeps => exact hl
  | faults hfits => exact raise_legal hl (hfits hd)
  | newb => exact invalidateAll_legal hl
  | wr k hw => exact memWrite_legal hl k hw
  | init hw => exact withInitAccs_legal hl hw
  | prop k hg => exact withStepCells_legal hl hg [k]
  | run r hg =>
    rw [rounds_eq_stepCells]
    exact withStepCells_legal hl hg (roundCells r)

theorem illegalReply_legal {cmd : Word32} {x : IllegalWord} (hd : decode cmd = .error x) :
    (illegalReply cmd e).engine.Legal := by
  cases he : e.err with
  | true => rwa [illegalReply_of_err he]
  | false =>
    rw [illegalReply_eq he]
    exact raise_legal hl (by simp only [FaultRecord.Fits, hd])

end legality

/-- Settles O34: waiting changes nothing, the reset state is legal, and every effect of a command
word leaves a legal block. -/
theorem stepKeepsLegal : Obligations.StepKeepsLegal := by
  intro s t hl ht
  rcases step_cases s with
    ⟨_, hs⟩ | ⟨rest, _, hs⟩ | ⟨cmd, wdata, rest, i, _, hd, hs⟩ | ⟨cmd, wdata, rest, x, _, hd, hs⟩
  · cases hs.symm.trans ht
    exact hl
  · cases hs.symm.trans ht
    exact reset_legal s.cfg
  · cases hs.symm.trans ht
    exact commandEffect_legal hl hd (commandEffect i cmd wdata s.engine)
  · cases hs.symm.trans ht
    exact illegalReply_legal hl hd

/-! ### The fault record (R45) -/

/-- NOP raises no fault (R202). -/
theorem not_fits_of_nop {f : FaultRecord} (hd : decode f.fcmd = .ok .nop) : ¬ f.Fits := by
  rw [FaultRecord.Fits, hd]
  cases f.cause <;> exact id

/-- The word 0 is NOP's. -/
theorem fcmd_ne_zero_of_fits {f : FaultRecord} (h : f.Fits) : f.fcmd ≠ 0 := fun h0 =>
  not_fits_of_nop (by rw [h0]; exact decode_of_encode_eq rfl (by decide)) h

theorem causeCode_ne_zero (x : Cause) : causeCode x ≠ 0 := by cases x <;> decide

/-- Settles O35: the record of a legal block fits its command word, so the word is not NOP's. -/
theorem faultRecordNamesCommand : Obligations.FaultRecordNamesCommand := by
  intro c e hl he
  obtain ⟨f, hf⟩ := err_eq_true_iff.mp he
  rw [fcmdReg, Engine.cause, hf]
  exact ⟨fcmd_ne_zero_of_fits (hl.record f hf), causeCode_ne_zero f.cause⟩

end Sys2Proof.Machine

/-!
PROOFS. RD after WR (spec/40_grid_access.md R138).
-/

namespace Sys2Proof.Machine

variable {c : Cfg}

/-- A command other than NEWB, PROP, RUN and WR of the cell keeps the cell (R138). -/
theorem commandEffect_cells {cmd : Word32} {e e' : Engine c} {i : Instr} {k : Fin 81}
    (h : CommandEffect cmd e i e') (hnewb : i ≠ .newb) (hprop : ∀ n, i ≠ .prop n)
    (hrun : ∀ r, i ≠ .run r) (hwr : i ≠ .wr k.val) : e'.cells[k] = e.cells[k] := by
  cases h with
  | keeps => rfl
  | faults => rfl
  | newb => exact absurd rfl hnewb
  | wr m hw =>
    have hkm : k ≠ m := by
      rintro rfl
      exact hwr rfl
    exact memWrite_cells_ne _ _ _ hkm
  | init => rfl
  | prop m hg => exact absurd rfl (hprop _)
  | run r hg => exact absurd rfl (hrun r)

/-- Settles O31: the effects left of such a command are none on the cell. -/
theorem otherCommandsKeepCell : Obligations.OtherCommandsKeepCell := by
  intro s i k hnewb hprop hrun hwr
  exact ⟨_, _, exec_eq i s, commandEffect_cells (commandEffect i s.cmd s.wdata s.engine) hnewb hprop
    hrun hwr⟩

/-- The step of a command's own word, when the command completes. -/
theorem step_of_complete {s : State} {i : Instr} {wdata : BusWord s.cfg}
    {rest : List (HostEvent s.cfg)} {e : Engine s.cfg} {d : BusWord s.cfg} (hwf : i.wf = true)
    (hp : s.pending = .command (encode i) wdata :: rest)
    (h : commandReply i (encode i) wdata s.engine = complete e d) :
    step s = .next { s with
      engine := e, cmd := encode i, wdata := wdata, pending := rest
      response := some { resp := .ok, rdata := d } } := by
  have hreply := (wordReply_of_ok (decode_encode hwf) wdata s.engine).trans h
  exact (step_of_command hp).trans
    (congrArg (fun r => Host.Outcome.next ((s.accept (encode i) wdata rest).answer r)) hreply)

theorem wf_of_cell (i : Fin 81) :
    (Instr.wr i.val).wf = true ∧ (Instr.rd i.val).wf = true := by
  have hi : argFits i.val = true := decide_eq_true (i.isLt.trans (by decide))
  exact ⟨hi, hi⟩

/-- Settles O32: WR leaves the cell valid with the word, and RD puts it back on the bus. -/
theorem wrThenRdReturnsWord : Obligations.WrThenRdReturnsWord := by
  intro s i d wdata rest he hd hp
  obtain ⟨hwr, hrd⟩ := wf_of_cell i
  have hread : rdReply i.val (encode (.rd i.val)) (memWrite s.engine i (fromBus d)) =
      complete (memWrite s.engine i (fromBus d)) (toBus (fromBus d)) :=
    rdReply_of_memRead ((memWrite_err ..).trans he) (gridWord_gridAddress (.cell i))
      (memRead_memWrite_self ..)
  rw [toBus_fromBus hd] at hread
  exact ⟨_, step_of_complete hwr hp (wrReply_of_wellFormed he i hd), rfl,
    step_of_complete hrd rfl hread⟩

end Sys2Proof.Machine

/-!
PROOFS. Sequences of commands: RUN a then RUN b (spec/42_propagation.md R165), the
pseudo-instructions LOADG and SOLVE (spec/30_encoding.md R109) and the batch run
(spec/70_reset_and_hazards.md R232, R234, R236).
-/

namespace Sys2Proof.Machine

variable {c : Cfg}

/-! ### RUN after RUN (R165) -/

theorem exec_run_of_err {s : State} (he : s.engine.err = true) (r : Nat) :
    exec (.run r) s = .next s.dropped := exec_of_drop (requireNotErr_of_err he _)

theorem exec_run_of_no_grid {s : State} (he : s.engine.err = false) (hg : s.engine.grid = none)
    (r : Nat) : exec (.run r) s = .next (s.faultedBy .uninit) :=
  exec_of_raise ((runReply_eq_raise_iff he).mpr ⟨rfl, hg⟩)

theorem exec_run_of_grid {s : State} (he : s.engine.err = false) {g : Grid s.cfg}
    (hg : s.engine.grid = some g) (r : Nat) :
    exec (.run r) s = .next (s.completed (s.engine.withGrid (rounds r g)) 0) :=
  exec_of_complete (runReply_of_grid he hg r)

/-- Settles O50: a faulted block drops both commands; without a grid the first does the fault entry
and the second is dropped; else the rounds add up. -/
theorem runsCompose : Obligations.RunsCompose := by
  intro a b s t ht
  cases he : s.engine.err with
  | true =>
    cases (exec_run_of_err he a).symm.trans ht
    exact (exec_run_of_err (s := s.dropped) he b).trans (exec_run_of_err he (a + b)).symm
  | false =>
    cases hg : s.engine.grid with
    | none =>
      cases (exec_run_of_no_grid he hg a).symm.trans ht
      exact (exec_run_of_err (s := s.faultedBy .uninit) rfl b).trans
        (exec_run_of_no_grid he hg (a + b)).symm
    | some g =>
      cases (exec_run_of_grid he hg a).symm.trans ht
      have hb := exec_run_of_grid (s := s.completed (s.engine.withGrid (rounds a g)) 0)
        he (grid_withGrid ..) b
      rw [exec_run_of_grid he hg, rounds_add]
      exact hb

/-! ### The block after a list of commands -/

/-- The transaction of a command of the host. -/
abbrev HostCommand.reply (h : HostCommand c) (e : Engine c) : Reply c :=
  commandReply h.instr (encode h.instr) h.wdata e

/-- The block after the commands of a list, one after the other. -/
def Engine.afterCommands (e : Engine c) (l : List (HostCommand c)) : Engine c :=
  l.foldl (fun e h => (h.reply e).engine) e

@[simp] theorem afterCommands_nil (e : Engine c) : e.afterCommands [] = e := rfl

theorem afterCommands_cons (e : Engine c) (h : HostCommand c) (l : List (HostCommand c)) :
    e.afterCommands (h :: l) = (h.reply e).engine.afterCommands l := rfl

theorem afterCommands_append (e : Engine c) (l l' : List (HostCommand c)) :
    e.afterCommands (l ++ l') = (e.afterCommands l).afterCommands l' := List.foldl_append

theorem afterCommands_of_complete {e e' : Engine c} {h : HostCommand c} {d : BusWord c}
    (hr : h.reply e = complete e' d) (l : List (HostCommand c)) :
    e.afterCommands (h :: l) = e'.afterCommands l := by
  rw [afterCommands_cons, hr, complete_engine]

/-- No command clears ERR (R208). -/
theorem err_of_afterCommands_err {e : Engine c} {l : List (HostCommand c)}
    (h : (e.afterCommands l).err = false) : e.err = false := by
  induction l generalizing e with
  | nil => exact h
  | cons x l ih => exact err_of_commandReply_err (ih h)

/-- The machine after the commands of a list and one more, the rest of the stream apart. -/
def State.afterCommands (s : State) (l : List (HostCommand s.cfg)) (h : HostCommand s.cfg) :
    State :=
  { s with
    engine := s.engine.afterCommands (l ++ [h]), cmd := encode h.instr, wdata := h.wdata
    response := some (h.reply (s.engine.afterCommands l)).response }

/-- The lists of commands in one configuration, so that the state can change along the list. -/
theorem run_commands_mk (l : List (HostCommand c)) (h : HostCommand c) (rest : List (HostCommand c))
    (hwf : ∀ x ∈ l ++ h :: rest, x.instr.wf = true) (e : Engine c) (cmd : Word32) (w : BusWord c)
    (x : Option (Response c)) (p : List (HostEvent c)) :
    Host.Core.run Sys2Proof.core (l.length + 1)
        (State.withCommands ⟨c, e, cmd, w, x, p⟩ (l ++ h :: rest)) =
      .next ((State.afterCommands ⟨c, e, cmd, w, x, p⟩ l h).withCommands rest) := by
  induction l generalizing e cmd w x with
  | nil =>
    have hh : h.instr.wf = true := hwf h List.mem_cons_self
    exact run_withCommands_cons ⟨c, e, cmd, w, x, p⟩ h rest (decode_encode hh) 0
  | cons y l ih =>
    have hy : y.instr.wf = true := hwf y List.mem_cons_self
    have hstep := run_withCommands_cons ⟨c, e, cmd, w, x, p⟩ y (l ++ h :: rest)
      (decode_encode hy) (l.length + 1)
    exact hstep.trans (ih (fun z hz => hwf z (List.mem_cons_of_mem y hz)) ..)

/-- **Running a list of commands**: each one is a step, and the block, the port and the response are
those of the last one (R80, R100). -/
theorem run_commands {s : State} {l : List (HostCommand s.cfg)} {h : HostCommand s.cfg}
    {rest : List (HostCommand s.cfg)} (hwf : ∀ x ∈ l ++ h :: rest, x.instr.wf = true) :
    Host.Core.run Sys2Proof.core (l.length + 1) (s.withCommands (l ++ h :: rest)) =
      .next ((s.afterCommands l h).withCommands rest) :=
  run_commands_mk l h rest hwf ..

/-- The machine after a list of commands whose last one returns OK. -/
theorem run_commands_of_ok {s : State} {l : List (HostCommand s.cfg)} {h : HostCommand s.cfg}
    {rest : List (HostCommand s.cfg)} (hwf : ∀ x ∈ l ++ h :: rest, x.instr.wf = true)
    {e : Engine s.cfg} {d : BusWord s.cfg} (hengine : s.engine.afterCommands (l ++ [h]) = e)
    (hresp : (h.reply (s.engine.afterCommands l)).response = { resp := .ok, rdata := d }) :
    Host.Core.run Sys2Proof.core (l.length + 1) (s.withCommands (l ++ h :: rest)) =
      .next { s with
        engine := e, cmd := encode h.instr, wdata := h.wdata
        response := some { resp := .ok, rdata := d }
        pending := rest.map HostCommand.event } := by
  rw [run_commands hwf, ← hengine, ← hresp]
  rfl

/-! ### Writing the cells (R109, LOADG) -/

theorem hostWr_reply {e : Engine c} (he : e.err = false) (i : Fin 81) {w : BusWord c}
    (hw : wellFormedData w = true) :
    HostCommand.reply { instr := .wr i.val, wdata := w } e =
      complete (memWrite e i (fromBus w)) 0 := wrReply_of_wellFormed he i hw

theorem withCells_err (e : Engine c) (cells : Vector (Option (LaneWord c)) 81) :
    ({ e with cells := cells, accs := none } : Engine c).err = e.err := rfl

section writes
variable {words : Vector (BusWord c) 81} (hw : ∀ i : Fin 81, wellFormedData words[i] = true)
include hw

/-- Writes leave their words in the cells they name and the accumulators invalid. -/
theorem afterCommands_writeCells {e : Engine c} (he : e.err = false) (order : List (Fin 81)) :
    (∀ k : Fin 81, (e.afterCommands (writeCells order words)).cells[k] =
      if k ∈ order then some (fromBus words[k]) else e.cells[k]) ∧
    (e.afterCommands (writeCells order words)).accs = (if order = [] then e.accs else none) ∧
    (e.afterCommands (writeCells order words)).fault = e.fault := by
  induction order generalizing e with
  | nil => exact ⟨fun _ => rfl, rfl, rfl⟩
  | cons i order ih =>
    have hstep : e.afterCommands (writeCells (i :: order) words) =
        (memWrite e i (fromBus words[i])).afterCommands (writeCells order words) :=
      afterCommands_of_complete (hostWr_reply he i (hw i)) _
    obtain ⟨hcells, haccs, hfault⟩ := ih (e := memWrite e i (fromBus words[i])) he
    rw [hstep]
    refine ⟨fun k => ?_, ?_, hfault⟩
    · rw [hcells]
      by_cases hk : k ∈ order
      · rw [if_pos hk, if_pos (List.mem_cons_of_mem i hk)]
      · rw [if_neg hk]
        by_cases hi : k = i
        · subst hi
          rw [memWrite_cells_self, if_pos List.mem_cons_self]
        · rw [memWrite_cells_ne _ _ _ hi, if_neg (List.mem_cons.not.mpr (not_or.mpr ⟨hi, hk⟩))]
    · rw [haccs, if_neg (List.cons_ne_nil i order), memWrite_accs, ite_self]

/-- Writes of every cell leave the block with these words alone. -/
theorem afterCommands_writeAll {e : Engine c} (he : e.err = false) {order : List (Fin 81)}
    (horder : order.Perm (List.finRange 81)) :
    e.afterCommands (writeCells order words) =
      { e with cells := words.map fun w => some (fromBus w), accs := none } := by
  obtain ⟨hcells, haccs, hfault⟩ := afterCommands_writeCells hw he order
  have hmem (k : Fin 81) : k ∈ order := horder.mem_iff.mpr (List.mem_finRange k)
  refine engine_ext (fun k => ?_) ?_ hfault
  · rw [hcells, if_pos (hmem k)]
    simp
  · rw [haccs, if_neg (List.ne_nil_of_mem (hmem 0))]

end writes

/-- Every write of a cell has a command word. -/
theorem writeCells_wf (order : List (Fin 81)) (words : Vector (BusWord c) 81) :
    ∀ h ∈ writeCells order words, h.instr.wf = true := by
  intro h hh
  obtain ⟨i, _, rfl⟩ := List.mem_map.mp hh
  obtain ⟨hwr, _⟩ := wf_of_cell i
  exact hwr

/-- Settles O53: the 81 writes name every cell, and the last is that of cell 80. -/
theorem loadgWritesEveryCell : Obligations.LoadgWritesEveryCell := by
  intro s ws he hw
  have hsplit : writeCells (List.finRange 81) ws =
      writeCells ((List.finRange 80).map Fin.castSucc) ws ++
        [{ instr := .wr (Fin.last 80).val, wdata := ws[Fin.last 80] }] := by
    rw [List.finRange_succ_last, writeCells, List.map_append]
    rfl
  have hcmd : encode (.wr (Fin.last 80).val) = 0x02000050#32 := by decide
  have hall := afterCommands_writeAll hw he (.refl _)
  have hwf := writeCells_wf (List.finRange 81) ws
  rw [hsplit] at hall hwf
  have hbefore : (s.engine.afterCommands
      (writeCells ((List.finRange 80).map Fin.castSucc) ws)).err = false := by
    rw [afterCommands_append] at hall
    exact err_of_afterCommands_err ((congrArg Engine.err hall).trans he)
  have hlast := hostWr_reply hbefore (Fin.last 80) (hw (Fin.last 80))
  have hrun := run_commands_of_ok (rest := []) hwf hall (congrArg Reply.response hlast)
  rw [length_writeCells, List.length_map, List.length_finRange] at hrun
  rw [Pseudo.expand, loadGrid, hsplit, ← hcmd]
  exact hrun

/-! ### INIT and RUN (R109, SOLVE) -/

theorem hostInit_reply {e : Engine c} (he : e.err = false) {ws : Vector (LaneWord c) 81}
    (hw : e.words = some ws) :
    (plain .init).reply e = complete (e.withGrid { cells := ws, accs := initAccs ws }) 0 := by
  rw [← withInitAccs_eq hw]
  exact initReply_of_words he hw

theorem hostRun_reply {e : Engine c} (he : e.err = false) {g : Grid c} (hg : e.grid = some g)
    (r : Nat) : (plain (.run r)).reply e = complete (e.withGrid (rounds r g)) 0 :=
  runReply_of_grid he hg r

/-- INIT and RUN r leave r rounds from the accumulators of the cells. -/
theorem afterCommands_solve {e : Engine c} (he : e.err = false) {ws : Vector (LaneWord c) 81}
    (hw : e.words = some ws) (r : Nat) :
    e.afterCommands [plain .init, plain (.run r)] =
      e.withGrid (rounds r { cells := ws, accs := initAccs ws }) := by
  rw [afterCommands_of_complete (hostInit_reply he hw),
    afterCommands_of_complete (hostRun_reply (withGrid_err .. |>.trans he) (grid_withGrid ..) r),
    afterCommands_nil, withGrid_withGrid]

/-- RUN's command word as a sum: its row's word and the operand have no bit in common (R103). -/
theorem encode_run {r : Nat} (hr : r < 256) :
    encode (.run r) = 0x06000000#32 + BitVec.ofNat 32 r := by
  have hdisjoint : 0x06000000#32 &&& BitVec.ofNat 32 r = 0#32 := by
    have hrow : 0x06000000#32 = 0x06#8 ++ 0#16 ++ 0#8 := by decide
    rw [hrow, ofNat_eq_append_arg hr, BitVec.and_append, BitVec.and_append]
    simp
  rw [BitVec.add_eq_or_of_and_eq_zero _ _ hdisjoint]
  exact encode_eq_match_or (i := .run r) 0x06#8 rfl (by decide) hr

/-- Settles O54: INIT and RUN are two commands, and both complete. -/
theorem solveIsInitThenRun : Obligations.SolveIsInitThenRun := by
  intro s ws r hr he hw
  have hwf : ∀ x ∈ [plain .init] ++ plain (c := s.cfg) (.run r) :: [], x.instr.wf = true := by
    intro x hx
    rcases List.mem_pair.mp hx with rfl | rfl
    · rfl
    · exact decide_eq_true hr
  have hgrid : s.engine.afterCommands [plain .init] =
      s.engine.withGrid { cells := ws, accs := initAccs ws } := by
    rw [afterCommands_of_complete (hostInit_reply he hw), afterCommands_nil]
  have hlast : ((plain (.run r)).reply (s.engine.afterCommands [plain .init])).response =
      { resp := .ok, rdata := 0 } := by
    rw [hgrid, hostRun_reply (withGrid_err .. |>.trans he) (grid_withGrid ..)]
    rfl
  rw [← encode_run hr]
  exact run_commands_of_ok hwf (afterCommands_solve he hw r) hlast

/-! ### Batch runs that end well (R234) -/

/-- STATUS.ERR (R44). -/
theorem getLsbD_statusReg_zero (e : Engine c) : (statusReg e).getLsbD 0 = e.err := by
  rw [statusReg, BitVec.getLsbD_append, if_pos (by decide)]
  cases e.err <;> rfl

/-- A command that leaves ERR = 0 has returned OK. -/
theorem resp_ok_of_not_err {i : Instr} {cmd : Word32} {w : BusWord c} {e : Engine c}
    (h : (commandReply i cmd w e).engine.err = false) :
    (commandReply i cmd w e).response.resp = .ok := by
  rcases commandReply_cases i cmd w e with
    ⟨he, _, hr⟩ | ⟨_, _, _, _, _, hr⟩ | ⟨_, _, _, hr⟩ | ⟨_, _, _, _, hr, _⟩
  · rw [hr, drop_engine, he] at h
    cases h
  · rw [hr, complete_resp]
  · rw [hr, raise_err] at h
    cases h
  · rw [hr, complete_resp]

/-- Only RDCSR returns OK with ERR = 1 (R207). -/
theorem not_err_of_resp_ok {i : Instr} (hi : ∀ n, i ≠ .rdcsr n) {cmd : Word32} {w : BusWord c}
    {e : Engine c} (h : (commandReply i cmd w e).response.resp = .ok) :
    (commandReply i cmd w e).engine.err = false := by
  rcases commandReply_cases i cmd w e with
    ⟨_, _, hr⟩ | ⟨n, _, hn, _⟩ | ⟨_, _, _, hr⟩ | ⟨_, _, _, _, hr, he, _⟩
  · rw [hr, drop_resp] at h
    cases h
  · exact absurd hn (hi n)
  · rw [hr, raise_resp] at h
    cases h
  · rw [hr, complete_engine, he]

/-- The last response of a list of commands is OK. -/
theorem exists_ok_iff {s : State} {l rest : List (HostCommand s.cfg)} {h : HostCommand s.cfg} :
    (∃ d : BusWord s.cfg, ((s.afterCommands l h).withCommands rest).response =
        some { resp := .ok, rdata := d }) ↔
      (h.reply (s.engine.afterCommands l)).response.resp = .ok := by
  constructor
  · rintro ⟨d, hd⟩
    exact congrArg Response.resp (Option.some.inj hd)
  · intro hok
    refine ⟨(h.reply (s.engine.afterCommands l)).response.rdata, congrArg some ?_⟩
    rw [← hok]
    rfl

/-- Commands that leave ERR = 0 in the end have each returned OK: no command clears ERR. -/
theorem everyCommandOk_of_not_err {s : State} {l : List (HostCommand s.cfg)}
    (hwf : ∀ x ∈ l, x.instr.wf = true) (h : (s.engine.afterCommands l).err = false) :
    s.EveryCommandOk l := by
  intro n hn
  have hsplit : l = l.take n ++ l[n] :: l.drop (n + 1) := by
    rw [List.cons_getElem_drop_succ, List.take_append_drop]
  have hlen : (l.take n).length = n := List.length_take_of_le (Nat.le_of_lt hn)
  have hok : (l[n].reply (s.engine.afterCommands (l.take n))).engine.err = false := by
    rw [hsplit, afterCommands_append, afterCommands_cons] at h
    exact err_of_afterCommands_err h
  rw [hsplit] at hwf
  have hrun := run_commands hwf
  rw [hlen, ← hsplit] at hrun
  obtain ⟨d, hd⟩ := exists_ok_iff (rest := l.drop (n + 1)).mpr (resp_ok_of_not_err hok)
  exact ⟨(s.afterCommands (l.take n) l[n]).withCommands (l.drop (n + 1)), d, hrun, hd⟩

/-- The last of some commands that each return OK returns OK. -/
theorem lastOk_of_everyCommandOk {s t : State} {l : List (HostCommand s.cfg)}
    {h : HostCommand s.cfg}
    (hrun : Host.Core.run Sys2Proof.core (l.length + 1) (s.withCommands (l ++ [h])) = .next t)
    (hok : s.EveryCommandOk (l ++ [h])) :
    ∃ d : BusWord t.cfg, t.response = some { resp := .ok, rdata := d } := by
  obtain ⟨t', d, hrun', hd⟩ := hok l.length (by simp)
  cases hrun.symm.trans hrun'
  exact ⟨d, hd⟩

/-- **R234 on a batch run**: it has ended well exactly when ERR = 0 after it, because its last
command is an RD. -/
theorem batch_endedWell_iff {s : State} {b : Batch s.cfg} (hb : b.Valid) :
    ∃ t : State,
      Host.Core.run Sys2Proof.core b.commands.length (s.withCommands b.commands) = .next t ∧
      t.pending = [] ∧ (statusReg t.engine).getLsbD 0 = (s.engine.afterCommands b.commands).err ∧
      (s.EndedWell b t ↔ (s.engine.afterCommands b.commands).err = false) ∧
      (s.EndedWell b t ↔ s.EveryCommandOk b.commands) := by
  have hwf := batch_commands_wf hb
  obtain ⟨l, a, hl⟩ := batch_last_read hb
  have hrun : Host.Core.run Sys2Proof.core b.commands.length (s.withCommands b.commands) =
      .next ((s.afterCommands l (plain (.rd a.val))).withCommands []) := by
    rw [hl] at hwf ⊢
    rw [List.length_append]
    exact run_commands hwf
  have hlast : s.engine.afterCommands b.commands =
      ((plain (.rd a.val)).reply (s.engine.afterCommands l)).engine := by
    rw [hl, afterCommands_append, afterCommands_cons, afterCommands_nil]
  have hended : s.EndedWell b ((s.afterCommands l (plain (.rd a.val))).withCommands []) ↔
      (s.engine.afterCommands b.commands).err = false := by
    rw [hlast]
    constructor
    · intro h
      have hok := (exists_ok_iff (s := s) (rest := [])).mp h.lastOk
      exact not_err_of_resp_ok (i := .rd a.val) nofun hok
    · exact fun h => ⟨hb, hrun, exists_ok_iff.mpr (resp_ok_of_not_err h)⟩
  refine ⟨_, hrun, rfl, ?_, hended, fun h => ?_, fun h => ⟨hb, hrun, ?_⟩⟩
  · rw [getLsbD_statusReg_zero, hl]
    rfl
  · exact everyCommandOk_of_not_err hwf (hended.mp h)
  · rw [hl] at h hrun
    rw [List.length_append] at hrun
    exact lastOk_of_everyCommandOk hrun h

/-- Settles O55: the three wordings of R234 are ERR = 0 after the run. -/
theorem batchEndsWellExactlyWithoutFault : Obligations.BatchEndsWellExactlyWithoutFault := by
  intro s b hb
  obtain ⟨t, hrun, hpending, hstatus, herr, hevery⟩ := batch_endedWell_iff hb
  exact ⟨t, hrun, hpending, herr.trans (by rw [hstatus]), hevery⟩

/-! ### What a batch run returns (R232, R236) -/

/-- A block whose grid words are all replaced keeps its fault record alone. -/
theorem withGrid_congr {e e' : Engine c} (h : e.fault = e'.fault) (g : Grid c) :
    e.withGrid g = e'.withGrid g := by
  rw [Engine.withGrid, Engine.withGrid, h]

/-- The loaded cells of a batch. -/
def Batch.loaded (b : Batch c) : Vector (LaneWord c) 81 :=
  b.words.map fun w => w.setWidth c.wordBits

/-- The grid after the rounds of a batch. -/
def Batch.result (b : Batch c) : Grid c :=
  Machine.rounds b.rounds { cells := b.loaded, accs := initAccs b.loaded }

/-- The commands of a batch run before RDCSR 3. -/
def Batch.commandsToRun (b : Batch c) : List (HostCommand c) :=
  (if b.newb then [plain .newb] else []) ++ writeCells b.order b.words ++
    [plain .init, plain (.run b.rounds)]

theorem commandsToDone_eq (b : Batch c) :
    b.commandsToDone = b.commandsToRun ++ [plain (.rdcsr 3)] := by
  simp [Batch.commandsToDone, Batch.commandsToRun]

/-- NEWB, or its absence, leaves a block that is not faulted so. -/
theorem afterCommands_newb_fault {e : Engine c} (he : e.err = false) (newb : Bool) :
    (e.afterCommands (if newb then [plain .newb] else [])).fault = e.fault := by
  cases newb with
  | false => rfl
  | true =>
    have hr : (plain .newb).reply e = complete (invalidateAll e) 0 := newbReply_eq he
    rw [if_pos rfl, afterCommands_of_complete hr, afterCommands_nil, invalidateAll_fault]

/-- Steps (a) to (d) of R232 leave the result of the rounds, whatever the block held before. -/
theorem afterCommands_commandsToRun {e : Engine c} (he : e.err = false) {b : Batch c} (hb : b.Valid)
    (hw : ∀ i : Fin 81, wellFormedData b.words[i] = true) :
    e.afterCommands b.commandsToRun = e.withGrid b.result := by
  have hfault := afterCommands_newb_fault he b.newb
  rw [Batch.commandsToRun, afterCommands_append, afterCommands_append]
  generalize e.afterCommands (if b.newb then [plain .newb] else []) = e₀ at hfault ⊢
  have he₀ : e₀.err = false := (congrArg Option.isSome hfault).trans he
  rw [afterCommands_writeAll hw he₀ hb.order]
  have hwords :
      Engine.words { e₀ with cells := b.words.map fun w => some (fromBus w), accs := none } =
        some b.loaded := words_eq_some_iff.mpr fun i => by simp [Batch.loaded, fromBus]
  rw [afterCommands_solve ((withCells_err ..).trans he₀) hwords]
  refine withGrid_congr ?_ _
  exact hfault

/-- RDCSR 3 in any block (R46, R191). -/
theorem hostRdcsr_reply (e : Engine c) :
    (plain (.rdcsr 3)).reply e = complete e (csrValue .ldone e) := rfl

/-- In a block that has its grid, every address up to 107 names a word and RD returns it. -/
theorem exists_hostRd_reply {e : Engine c} (he : e.err = false) (g : Grid c) (a : Fin 108) :
    ∃ (x : GridWord) (w : LaneWord c), gridWord a.val = some x ∧ memRead (e.withGrid g) x = some w ∧
      (plain (.rd a.val)).reply (e.withGrid g) = complete (e.withGrid g) (toBus w) := by
  have haddr : gridWord a.val ≠ none := fun hnone => by
    have := gridWord_eq_none_iff.mp hnone
    omega
  obtain ⟨x, hx⟩ := Option.ne_none_iff_exists'.mp haddr
  have hread : ∃ w, memRead (e.withGrid g) x = some w := by
    cases x with
    | cell i => exact ⟨_, memRead_withGrid_cell e g i⟩
    | acc u => exact ⟨_, memRead_withGrid_acc e g u⟩
  obtain ⟨w, hw⟩ := hread
  exact ⟨x, w, hx, hw, rdReply_of_memRead ((withGrid_err e g).trans he) hx hw⟩

/-- Reads leave such a block as it is (R79). -/
theorem afterCommands_readWords {e : Engine c} (he : e.err = false) (g : Grid c)
    (reads : List (Fin 108)) : (e.withGrid g).afterCommands (readWords reads) = e.withGrid g := by
  induction reads with
  | nil => rfl
  | cons a reads ih =>
    obtain ⟨_, _, _, _, hr⟩ := exists_hostRd_reply he g a
    exact (afterCommands_of_complete hr _).trans ih

section batch
variable {s : State} (he : s.engine.err = false) {b : Batch s.cfg} (hb : b.Valid)
  (hw : ∀ i : Fin 81, wellFormedData b.words[i] = true)
include he hb hw

theorem afterCommands_commandsToDone :
    s.engine.afterCommands b.commandsToDone = s.engine.withGrid b.result := by
  rw [commandsToDone_eq, afterCommands_append, afterCommands_commandsToRun he hb hw,
    afterCommands_of_complete (hostRdcsr_reply _), afterCommands_nil]

/-- Some of the reads, after steps (a) to (e), change nothing more. -/
theorem afterCommands_toReads (reads : List (Fin 108)) :
    s.engine.afterCommands (b.commandsToDone ++ readWords reads) = s.engine.withGrid b.result := by
  rw [afterCommands_append, afterCommands_commandsToDone he hb hw, afterCommands_readWords he]

/-- RDCSR 3 returns LDONE of the result. -/
theorem run_batch_toDone :
    Host.Core.run Sys2Proof.core b.commandsToDone.length (s.withCommands b.commands) =
      .next { s with
        engine := s.engine.withGrid b.result, cmd := encode (.rdcsr 3), wdata := 0
        response := some
          { resp := .ok, rdata := (ldoneReg (s.engine.withGrid b.result)).setWidth s.cfg.busBits }
        pending := (readWords b.reads).map HostCommand.event } := by
  have hwf := batch_commands_wf hb
  have hdone := afterCommands_commandsToDone he hb hw
  rw [Batch.commands, commandsToDone_eq, List.append_assoc] at hwf ⊢
  rw [commandsToDone_eq] at hdone
  rw [List.length_append]
  refine run_commands_of_ok hwf hdone ?_
  rw [afterCommands_commandsToRun he hb hw, hostRdcsr_reply]
  rfl

/-- Each RD returns its word of the result. -/
theorem run_batch_read {k : Nat} {a : Fin 108} (ha : b.reads[k]? = some a) :
    ∃ (x : GridWord) (w : LaneWord s.cfg), gridWord a.val = some x ∧
      memRead (s.engine.withGrid b.result) x = some w ∧
      Host.Core.run Sys2Proof.core (b.commandsToDone.length + (k + 1)) (s.withCommands b.commands) =
        .next { s with
          engine := s.engine.withGrid b.result, cmd := encode (.rd a.val), wdata := 0
          response := some { resp := .ok, rdata := w.setWidth s.cfg.busBits }
          pending := (readWords (b.reads.drop (k + 1))).map HostCommand.event } := by
  obtain ⟨hk, hget⟩ := List.getElem?_eq_some_iff.mp ha
  have hreads : b.reads = b.reads.take k ++ a :: b.reads.drop (k + 1) := by
    rw [← hget, List.cons_getElem_drop_succ, List.take_append_drop]
  have hsplit : b.commands = (b.commandsToDone ++ readWords (b.reads.take k)) ++
      plain (.rd a.val) :: readWords (b.reads.drop (k + 1)) := by
    rw [List.append_assoc]
    exact congrArg (b.commandsToDone ++ ·) ((congrArg readWords hreads).trans List.map_append)
  obtain ⟨x, w, hx, hread, hr⟩ := exists_hostRd_reply he b.result a
  have hbefore := afterCommands_toReads he hb hw (b.reads.take k)
  have hlen : (b.commandsToDone ++ readWords (b.reads.take k)).length + 1 =
      b.commandsToDone.length + (k + 1) := by
    rw [List.length_append, length_readWords, List.length_take_of_le (Nat.le_of_lt hk),
      Nat.add_assoc]
  have hwf := batch_commands_wf hb
  refine ⟨x, w, hx, hread, ?_⟩
  rw [hsplit] at hwf ⊢
  rw [← hlen]
  refine run_commands_of_ok hwf ?_ ?_
  · rw [afterCommands_append, hbefore, afterCommands_of_complete hr, afterCommands_nil]
  · rw [hbefore, hr]
    rfl

theorem exists_endedWell : ∃ t, s.EndedWell b t := by
  obtain ⟨t, _, _, _, herr, _⟩ := batch_endedWell_iff hb
  refine ⟨t, herr.mpr ?_⟩
  rw [Batch.commands, afterCommands_toReads he hb hw, withGrid_err, he]

end batch

/-- Settles O56: steps (a) to (d) leave the result of the rounds, and the reads after them each
complete on it. -/
theorem batchRunEndsWell : Obligations.BatchRunEndsWell := by
  intro s b hb he hw ws e after
  exact ⟨run_batch_toDone he hb hw, fun k a ha => run_batch_read he hb hw ha,
    exists_endedWell he hb hw⟩

end Sys2Proof.Machine
